-- ==== Sys2Proof/Word.lean ====
section
/-! DEFINITION. The word types of the block (00_scope.md R9, R10): bytes, 32-bit container fields, 64-bit
registers and addresses. -/

namespace Sys2Proof

/-- A byte (R9). -/
abbrev Byte := BitVec 8

/-- A 32-bit container field: header fields and frame offsets (R34, R70). -/
abbrev U32 := BitVec 32

/-- A 64-bit register of the register interface (R8 `REG_BITS`). -/
abbrev Word := BitVec 64

/-- A host byte address (R8 `HOST_ADDR_BITS`). -/
abbrev Addr := BitVec 64

/-- The OP field of CMD, `CMD[3:0]` (R24). -/
abbrev Op := BitVec 4

end Sys2Proof
end

