-- ==== Sys2Proof/Syntax.lean ====
section
/-! DEFINITION. The instructions of the block, one constructor per row of spec/opcode_table.json (00_scope.md R2): the
host commands as the Engine takes them from E_OP, and the run pairs of an RLE stream. -/

namespace Sys2Proof

/-- An instruction. The commands have no operand fields: their operands are the latched ARG registers (R25, R77). -/
inductive Instr where
  /-- LOAD, OP = 0x1 (40_context_load.md R100) -/
  | load
  /-- DECODE, OP = 0x2 (42_frame_decode.md R150) -/
  | decode
  /-- CLEAR, OP = 0x3 (41_registry.md R135) -/
  | clear
  /-- CMD_RESERVED, OP in 0x0, 0x4 to 0xF (30_encoding.md R78 item 1) -/
  | cmdReserved (op : Op)
  /-- RUN L, P with L not 0 (30_encoding.md R75, 43_run_expansion.md R180) -/
  | run (runLength paletteIndex : Byte)
  /-- RUN_ZERO, a run pair of length 0 (30_encoding.md R78 item 3, 43_run_expansion.md R186) -/
  | runZero (paletteIndex : Byte)
deriving DecidableEq, Repr

end Sys2Proof
end

