-- ==== Sys2Proof/WellFormed.lean ====
section
/-! DEFINITION. Which terms of Instr stand for an encoding (30_encoding.md R75, R77, R78). -/

namespace Sys2Proof

/-- The OP values R77 and R78 reserve: 0x0 and 0x4 to 0xF. -/
def reservedOp (op : Op) : Bool := op == 0#4 || decide (4#4 ≤ op)

/-- An instruction is well formed when it is the reading of some encoding: a reserved command carries a reserved OP
(R77), and a RUN has a length of at least 1, since length 0 is RUN_ZERO (R75, R78 item 3). -/
def Instr.wf : Instr → Bool
  | .load => true
  | .decode => true
  | .clear => true
  | .cmdReserved op => reservedOp op
  | .run runLength _ => runLength != 0#8
  | .runZero _ => true

end Sys2Proof
end

