-- ==== Sys2Proof/Decode.lean ====
section
/-! DEFINITION. The decoder of command words and run pairs (30_encoding.md R24, R75, R77, R78), and after it the
encoder, written from the same tables. -/

namespace Sys2Proof

/-- What the decoder is given: a word written to CMD (R24), or the bytes of an RLE stream from the run cursor on (R75).
The word has no byte order, since registers are accessed whole (R54). -/
inductive Code where
  | command (w : Word)
  | stream (bytes : List Byte)
deriving DecidableEq, Repr

/-- Why the decoder refuses: fewer than two bytes of the stream are left, so there is no run pair (R184). -/
inductive DecodeError where
  | truncatedPair
deriving DecidableEq, Repr

/-- Command dispatch on the OP field (R77). -/
def decodeOp (op : Op) : Instr :=
  if op = 1#4 then .load
  else if op = 2#4 then .decode
  else if op = 3#4 then .clear
  else .cmdReserved op

/-- The OP field of a word written to CMD: `CMD[3:0]`, bits 63:4 ignored (R24, R78 item 2). -/
def opField (w : Word) : Op := w.extractLsb' 0 4

/-- A run pair from its two bytes (R75): `run_length` first, RUN_ZERO matched before RUN. -/
def decodePair (runLength paletteIndex : Byte) : Instr :=
  if runLength = 0#8 then .runZero paletteIndex else .run runLength paletteIndex

/-- The decoder. A stream is read by its first two bytes. -/
def decode : Code → Except DecodeError Instr
  | .command w => .ok (decodeOp (opField w))
  | .stream (l :: p :: _) => .ok (decodePair l p)
  | .stream _ => .error .truncatedPair

/-- The OP value of a command (R77). -/
def opOf : Instr → Op
  | .load => 1#4
  | .decode => 2#4
  | .clear => 3#4
  | .cmdReserved op => op
  | .run _ _ => 0#4
  | .runZero _ => 0#4

/-- The encoding of an instruction: a command as the CMD word with bits 63:4 clear (R24), a run pair as its two bytes,
length first (R75). -/
def encode : Instr → Code
  | .load => .command (BitVec.setWidth 64 (opOf .load))
  | .decode => .command (BitVec.setWidth 64 (opOf .decode))
  | .clear => .command (BitVec.setWidth 64 (opOf .clear))
  | .cmdReserved op => .command (BitVec.setWidth 64 (opOf (.cmdReserved op)))
  | .run l p => .stream [l, p]
  | .runZero p => .stream [0#8, p]

/-- Bits 7:0 and 15:8 of a 16-bit run pair `p`, as the two bytes of the stream, the first at the even offset (R75). -/
def pairOfNat (p : Nat) : List Byte := [BitVec.ofNat 8 p, BitVec.ofNat 8 (p / 256)]

/-- Whether the host's table rows of `nbits` bits are run pairs: the table gives a run pair 16 bits and a command word
64 bits, or the byte that holds OP. DESIGN CHOICE (notes/assumptions/11.md). -/
def isPairWidth (nbits : Nat) : Bool := nbits == 16

/-- The instruction this decoder reads from an instruction whose bits are `w`, numbered as spec/opcode_table.json
numbers them (R9, R24, R75). -/
def decodeTableWord (nbits w : Nat) : Option Instr :=
  if nbits = 0 ∨ 64 < nbits then none
  else
    match decode (if isPairWidth nbits then .stream (pairOfNat w) else .command (BitVec.ofNat 64 w)) with
    | .ok i => some i
    | .error _ => none

end Sys2Proof
end

