-- ==== Sys2Proof/Config.lean ====
section
/-! DEFINITION. The parameters of the block: the constants the source fixes (00_scope.md R7), the parameters it
leaves open (00_scope.md R8, 20_memory.md R53 and R58) as one plain record, and the free values. -/

namespace Sys2Proof.Config

/-- R7 `PALETTE_CAPACITY`. UNVERIFIED, as every literal of R7 (R6; notes/assumptions/24.md). -/
@[simp] abbrev paletteCapacity : Nat := 256

/-- R7 `HEADER_BYTES`. -/
@[simp] abbrev headerBytes : Nat := 16

/-- R7 `OFFSET_ENTRY_BYTES`. -/
@[simp] abbrev offsetEntryBytes : Nat := 4

/-- R7 `PAIR_BYTES`. -/
@[simp] abbrev pairBytes : Nat := 2

/-- R7 `CHANNELS_PER_PIXEL`. -/
@[simp] abbrev channels : Nat := 4

/-- R7 `ALPHA`. -/
@[simp] abbrev alpha : Byte := 0xFF#8

/-- The number of host byte addresses, `2^HOST_ADDR_BITS` (R8, R50). -/
@[simp] abbrev addrSpace : Nat := 2 ^ 64

/-- The size of the register window in bytes (R21). -/
@[simp] abbrev windowBytes : Nat := 0x100

/-- The kind of a request to host memory (R53). -/
inductive AccessKind where
  | read
  | write
deriving DecidableEq, Repr

/-- One rule by which host memory refuses a request of the Engine (R53). Lists of these rules express every
predicate `HMEM_ADMIT` on requests inside the address space, since `request` names a single request.
DESIGN CHOICE (notes/assumptions/4.md). -/
inductive HmemRule where
  /-- exactly this request is refused -/
  | request (addr len : Nat) (kind : AccessKind)
  /-- every request of this kind that touches a byte of the region is refused; a request of no bytes touches none, and is
  refused only by a `request` that names it (notes/assumptions/4.md) -/
  | region (base size : Nat) (kind : AccessKind)
deriving DecidableEq, Repr

/-- `ERROR_DEST_POLICY` (R8, R162): what the destination holds after a DECODE that fails in its pixel loop. -/
inductive ErrorDestPolicy where
  /-- R8 `prefix`: the pixels before ERR_PIXEL are written, the rest unchanged -/
  | writtenPrefix
  /-- R8 `any`: every byte of the N-pixel window holds any value -/
  | anyValue
deriving DecidableEq, Repr

/-- The parameters a model takes as arguments (R8, R53, R58). A capacity `none` is unbounded. They are fixed for a
run: no step writes them. DESIGN CHOICE: held as plain data in State (notes/assumptions/3.md). -/
structure Platform where
  maxContexts : Option Nat
  maxRleBytes : Option Nat
  maxFrames : Option Nat
  errorDest : ErrorDestPolicy
  /-- the requests host memory refuses: `HMEM_ADMIT` by its complement (R53) -/
  hmemRefused : List HmemRule
  /-- `REG_BASE` (R58) -/
  regBase : Addr
deriving DecidableEq, Repr

/-- The platform of the reset state: every capacity unbounded and the policy `prefix`, as R8 says of the source's
software and of the default; no request inside the address space refused; the window at the top of the address space.
DESIGN CHOICE (notes/assumptions/3.md). -/
def Platform.default : Platform where
  maxContexts := none
  maxRleBytes := none
  maxFrames := none
  errorDest := .writtenPrefix
  hmemRefused := []
  regBase := 0xFFFFFFFFFFFFFF00#64

/-- The free bytes of the model: the value a Host read of a live destination byte returns (R251) and the destination
bytes after a pixel-loop error under the policy `any` (R162). No body: nothing can be proved about a value of it
(notes/assumptions/7.md). The step applies it to the counter `State.freeNext`. -/
opaque freeByte : Nat → Byte

end Sys2Proof.Config
end

