-- ==== Sys2Proof/Machine/State.lean ====
section
/-! DEFINITION. Everything the spec gives the machine (10_state.md, 20_memory.md R50), as plain data, and its value after
reset (10_state.md R42). -/

namespace Sys2Proof.Machine

/-- E_STATE (R30). -/
inductive EState where
  | idle
  | pending
  | decoding
deriving DecidableEq, Repr

/-- The ten operand registers: as ARG_* (R21, R23) and, latched at acceptance, as L_* (R25, R30). -/
structure Operands where
  handle : Word
  frame : Word
  destBase : Word
  destPixels : Word
  destStride : Word
  palBase : Word
  palLen : Word
  blobBase : Word
  blobLen : Word
  declaredSize : Word
deriving DecidableEq, Repr

/-- The RES registers (R21, R27). -/
structure Results where
  handle : Word
  width : Word
  height : Word
  fps : Word
  frameCount : Word
  paletteSize : Word
deriving DecidableEq, Repr

/-- The decode working registers (R31): H, NPIX, I, CURSOR, STARTED, REM, IDX. NPIX, I and CURSOR are held exactly
(R31, R32), so they are natural numbers here. -/
structure Work where
  /-- H -/
  ctxIndex : Nat
  /-- NPIX -/
  npix : Nat
  /-- I -/
  pixel : Nat
  /-- CURSOR, the block's program counter (R32) -/
  cursor : Nat
  /-- STARTED -/
  started : Bool
  /-- REM -/
  rem : Byte
  /-- IDX -/
  idx : Byte
deriving DecidableEq, Repr

/-- A palette entry (R34). -/
structure Color where
  r : Byte
  g : Byte
  b : Byte
deriving DecidableEq, Repr

/-- A context, the stored copy of one loaded video (R34). -/
structure Context where
  width : U32
  height : U32
  fps : U32
  frameCount : U32
  offsets : List U32
  rle : List Byte
  pal : List Color
  palCount : Nat
deriving DecidableEq, Repr

/-- The error kinds (60_exceptions.md R210). -/
inductive CmdError where
  | malformedHeader
  | sizeMismatch
  | paletteTooLarge
  | frameIndexOutOfRange
  | bufferTooSmall
  | invalidPaletteIndex
  | truncatedRunStream
  | zeroLengthRun
  | notFound
  | badCommand
  | capacityExceeded
deriving DecidableEq, Repr

/-- Host memory (20_memory.md R50): the listed bytes, by address. Its canonical form is `Memory.wf` of Machine/Ops.lean. -/
abbrev Memory := List Host.Cell

/-- The two agents (R3). -/
inductive Agent where
  | host
  | engine
deriving DecidableEq, Repr

/-- One step of the Host (R12), the polling of R81's WAIT, or a reset of the block (R240). A register access is given by
its offset in the window (the Host address REG_BASE + off, R58) and its width in bits, so that the accesses R55 refuses can
be written down. -/
inductive HostAction where
  | regRead (off width : Nat)
  | regWrite (off width : Nat) (w : Word)
  | memRead (addr : Addr) (n : Nat)
  | memWrite (addr : Addr) (bytes : List Byte)
  /-- WAIT (R81): read STATUS until bit 1 reads 1 -/
  | wait
  | reset
deriving DecidableEq, Repr

/-- What the Host's last read returned. The model's own (notes/assumptions/18.md). -/
inductive HostValue where
  | nothing
  | word (w : Word)
  | bytes (l : List Byte)
deriving DecidableEq, Repr

/-- The state: the block (10_state.md R20), host memory (20_memory.md R50), the platform parameters, and the model's own
fields that hold the Host's side of an interleaving. BUSY and VID_COUNT are views (R26, R28). -/
structure State where
  /-- ARG registers (R21) -/
  args : Operands
  /-- RES registers (R27) -/
  res : Results
  /-- STATUS.DONE (R26) -/
  done : Bool
  /-- STATUS.ERR (R26) -/
  err : BitVec 4
  /-- ERR_PIXEL (R29) -/
  errPixel : Word
  /-- ERR_CURSOR (R29) -/
  errCursor : Word
  /-- E_STATE (R30) -/
  eState : EState
  /-- E_OP (R30) -/
  eOp : Op
  /-- L_* (R30) -/
  latched : Operands
  /-- the decode working registers (R31) -/
  work : Work
  /-- CTX (R37) -/
  ctxs : List Context
  /-- HAZARD (R38) -/
  hazard : Bool
  /-- HMEM (R50) -/
  mem : Memory
  /-- the platform parameters (R8, R53, R58) -/
  platform : Config.Platform
  /-- the model's own: the Host's steps still to come (notes/assumptions/5.md) -/
  hostProgram : List HostAction
  /-- the model's own: which agent moves in the next steps (notes/assumptions/5.md) -/
  turns : List Agent
  /-- the model's own: what the Host's last read returned (notes/assumptions/18.md) -/
  lastRead : HostValue
  /-- the model's own: how many free values have been used (notes/assumptions/7.md) -/
  freeNext : Nat
deriving DecidableEq, Repr

/-- Why a step stops. -/
inductive Fault where
  /-- R53, R218: host memory refused a request of the Engine, so the Engine has no step and the command does not end.
  Raised by the meanings of LOAD and RUN; the machine's step lets the turn pass instead of stopping. Safe. -/
  | hostMemoryRefused
  /-- A DECODING state no rule gives a step: H names no context, or I exceeds NPIX. No run reaches one (R31, R41). Raised
  by the pixel step and the Engine. Safe. -/
  | noRule
  /-- A Host access that runs past the last byte of host memory (R50: addresses end at 2^64 - 1). Raised by the Host's
  memory accesses. Safe. -/
  | hostAddress
deriving DecidableEq, Repr

/-- Why the model gives a step no meaning. -/
inductive Refusal where
  /-- An instruction whose meaning is not written yet, by its mnemonic. Raised by exec's refused arms only. Safe. -/
  | notModelled (mnemonic : String)
  /-- R55, R219: an access to the register window that is not an aligned 64-bit access to an offset below 0x100. Raised
  by the Host's register and memory accesses. Safe. -/
  | registerAccess
deriving DecidableEq, Repr

/-- Operand registers that all hold 0: the ARG registers after reset (R21, R42). For the latched copies, DESIGN CHOICE
(R42 gives them no value; notes/assumptions/1.md). -/
def Operands.zero : Operands := ⟨0, 0, 0, 0, 0, 0, 0, 0, 0, 0⟩

/-- The RES registers after reset (R21, R42). -/
def Results.zero : Results := ⟨0, 0, 0, 0, 0, 0⟩

/-- The working registers of the reset state. DESIGN CHOICE: R41 and R42 give them no value (notes/assumptions/1.md). -/
def Work.zero : Work := ⟨0, 0, 0, 0, false, 0, 0⟩

/-- The machine right after reset (10_state.md R42, 70_reset_and_hazards.md R240), on the default platform, with nothing
in host memory and no Host step to come. -/
def State.reset : State where
  args := Operands.zero
  res := Results.zero
  done := false
  err := 0
  errPixel := 0
  errCursor := 0
  eState := .idle
  eOp := 0
  latched := Operands.zero
  work := Work.zero
  ctxs := []
  hazard := false
  mem := []
  platform := Config.Platform.default
  hostProgram := []
  turns := []
  lastRead := .nothing
  freeNext := 0

end Sys2Proof.Machine
end

