-- ==== Sys2Proof/Machine/Flags.lean ====
section
/-! DEFINITION. The block's flags (10_state.md R26, R39): the error codes (60_exceptions.md R210) and the STATUS word. The
block has no condition codes. -/

namespace Sys2Proof.Machine

/-- The error codes (R210). -/
def CmdError.code : CmdError → BitVec 4
  | .malformedHeader => 1
  | .sizeMismatch => 2
  | .paletteTooLarge => 3
  | .frameIndexOutOfRange => 4
  | .bufferTooSmall => 5
  | .invalidPaletteIndex => 6
  | .truncatedRunStream => 7
  | .zeroLengthRun => 8
  | .notFound => 9
  | .badCommand => 10
  | .capacityExceeded => 11

/-- STATUS.BUSY, a view of E_STATE (R26). -/
def busy (s : State) : Bool := s.eState != .idle

/-- The STATUS word (R26): bits 63:17 zero, HAZARD, bits 15:12 zero, ERR, bits 7:2 zero, DONE, BUSY. -/
def statusWord (s : State) : Word :=
  0#47 ++ BitVec.ofBool s.hazard ++ 0#4 ++ s.err ++ 0#6 ++ BitVec.ofBool s.done ++ BitVec.ofBool (busy s)

/-- VID_COUNT, a view of `len(CTX)` (R28), as a 64-bit register shows it (notes/assumptions/15.md). -/
def vidCount (s : State) : Word := BitVec.ofNat 64 s.ctxs.length

end Sys2Proof.Machine
end

