-- ==== Sys2Proof/Machine/Operands.lean ====
section
/-! DEFINITION. Operand assembly (30_encoding.md R79): the fields of a container (R70), the palette bytes (R74), the signed
operands (10_state.md R23) and the host addresses a command forms. All of it exact, nothing wraps (00_scope.md R10). -/

namespace Sys2Proof.Machine

/-- `as_s64` (R10): a register word as a two's-complement integer. -/
def asS64 (w : Word) : Int := w.toInt

/-- The byte `s[o]` of a byte sequence (R9). Read only where the rules have checked the length (R103, R106). -/
def byteAt (s : List Byte) (o : Nat) : Byte := s.getD o 0#8

/-- `u32le(s, o)` (R11): the little-endian 32-bit value of bytes `o .. o+3`. -/
def u32le (s : List Byte) (o : Nat) : Nat :=
  (byteAt s o).toNat + 256 * (byteAt s (o + 1)).toNat + 65536 * (byteAt s (o + 2)).toNat
    + 16777216 * (byteAt s (o + 3)).toNat

/-- A 32-bit container field at blob offset `o` (R70, R79). -/
def field (blob : List Byte) (o : Nat) : U32 := BitVec.ofNat 32 (u32le blob o)

/-- The length of the header and the offset table, `16 + 4 * fc`, exact (R103). -/
def headerLen (fc : Nat) : Nat := Config.headerBytes + Config.offsetEntryBytes * fc

/-- The offset table (R104). -/
def offsetTable (blob : List Byte) (fc : Nat) : List U32 :=
  (List.range fc).map fun k => field blob (Config.headerBytes + Config.offsetEntryBytes * k)

/-- The colour of an entry that was not supplied: `(0, 0, 0)` (R35, R108). -/
def Color.black : Color := ⟨0, 0, 0⟩

/-- Entry `k` of the palette bytes: bytes `3k, 3k+1, 3k+2` (R74). -/
def colorAt (pal : List Byte) (k : Nat) : Color :=
  ⟨byteAt pal (3 * k), byteAt pal (3 * k + 1), byteAt pal (3 * k + 2)⟩

/-- `build_palette` (R108): 256 entries, the first `n` from the palette bytes. -/
def buildPalette (pal : List Byte) (n : Nat) : List Color :=
  (List.range Config.paletteCapacity).map fun k => if k < n then colorAt pal k else Color.black

/-- Palette entry `idx` of a context (R189). -/
def paletteEntry (v : Context) (idx : Byte) : Color := v.pal.getD idx.toNat Color.black

/-- The byte address of frame `f`'s first pair, `2 * frame_offsets[f]`, exact (R72, R156). The index is below
frame_count, the table's length, wherever this is read (R153; notes/assumptions/14.md). -/
def firstPair (v : Context) (f : Nat) : Nat := (v.offsets.getD f 0#32).toNat * 2

/-- The pixel count `width * height`, exact (R154). -/
def pixelCount (v : Context) : Nat := v.width.toNat * v.height.toNat

/-- The host address of destination pixel `i`: `DEST + 4 * i`, exact (R76, R190). -/
def pixelAddr (l : Operands) (i : Nat) : Nat := l.destBase.toNat + Config.channels * i

/-- The four bytes of a pixel, r lowest and alpha highest (R76, R190). -/
def pixelBytes (c : Color) : List Byte := [c.r, c.g, c.b, Config.alpha]

/-- The cursor of the next fetch: the first fetch of a frame does not advance, every later one moves by 2 (R182). -/
def nextCursor (w : Work) : Nat := if w.started then w.cursor + Config.pairBytes else w.cursor

/-- Whether `x` lies in the `len` addresses from `base` on. -/
def inRange (base len x : Nat) : Bool := decide (base ≤ x) && decide (x < base + len)

end Sys2Proof.Machine
end

