-- ==== Sys2Proof/Machine/Ops.lean ====
section
/-! DEFINITION. The shared operations: host memory in its canonical form, the Engine's requests to it (20_memory.md R53),
command acceptance (10_state.md R25), ending a command with an error or with success (60_exceptions.md R214, R215), and
reset (70_reset_and_hazards.md R240). -/

namespace Sys2Proof.Machine

/-- What a byte of host memory reads as until something is written there. DESIGN CHOICE: R42 leaves host memory
unspecified (notes/assumptions/2.md). -/
def Memory.unlisted : Byte := 0#8

/-- The byte at an address. -/
def Memory.get : Memory → Nat → Byte
  | [], _ => Memory.unlisted
  | (a, b) :: m, x => if a = x then b else Memory.get m x

/-- Write one byte, keeping the canonical form. -/
def Memory.put : Memory → Nat → Byte → Memory
  | [], x, v => if v = Memory.unlisted then [] else [(x, v)]
  | (a, b) :: m, x, v =>
    if x < a then (if v = Memory.unlisted then (a, b) :: m else (x, v) :: (a, b) :: m)
    else if x = a then (if v = Memory.unlisted then m else (x, v) :: m)
    else (a, b) :: Memory.put m x v

/-- The `n` bytes from `a` on, lowest address first (R11). -/
def Memory.read (m : Memory) (a n : Nat) : List Byte := (List.range n).map fun k => Memory.get m (a + k)

/-- Write a byte sequence from `a` on, lowest address first (R11). -/
def Memory.write (m : Memory) (a : Nat) : List Byte → Memory
  | [] => m
  | b :: bs => Memory.write (Memory.put m a b) (a + 1) bs

/-- The canonical form from address `lo` on: addresses strictly rising and inside host memory (R50), no entry equal to
what an unlisted address reads as. -/
def Memory.wfFrom (lo : Nat) : Memory → Bool
  | [] => true
  | (a, b) :: m =>
    decide (lo ≤ a) && decide (a < Config.addrSpace) && b != Memory.unlisted && Memory.wfFrom (a + 1) m

/-- The canonical form of host memory. -/
def Memory.wf (m : Memory) : Bool := Memory.wfFrom 0 m

/-- Whether a rule refuses a request (R53). A region refuses the requests that share a byte with it, so none of length 0:
DESIGN CHOICE, R53 does not say how a platform treats those (notes/assumptions/4.md). -/
def hmemRuleRefuses (r : Config.HmemRule) (a n : Nat) (kind : Config.AccessKind) : Bool :=
  match r with
  | .request addr len k => decide (k = kind) && decide (addr = a) && decide (len = n)
  | .region base size k => decide (k = kind) && decide (max base a < min (base + size) (a + n))

/-- `HMEM_ADMIT(a, n, kind)` (R53): a request past 2^64 is always refused. -/
def hmemAdmit (p : Config.Platform) (a n : Nat) (kind : Config.AccessKind) : Bool :=
  decide (a + n ≤ Config.addrSpace) && !p.hmemRefused.any fun r => hmemRuleRefuses r a n kind

/-- `MemRead(a, n)` (R11, R53): none when host memory refuses the request. -/
def hmemRead (s : State) (a n : Nat) : Option (List Byte) :=
  if hmemAdmit s.platform a n .read then some (Memory.read s.mem a n) else none

/-- `MemWrite(a, len(bytes), bytes)` (R11, R53): none when host memory refuses the request. -/
def hmemWrite (s : State) (a : Nat) (bytes : List Byte) : Option Memory :=
  if hmemAdmit s.platform a bytes.length .write then some (Memory.write s.mem a bytes) else none

/-- Whether a capacity admits `n`; an absent capacity is unbounded (R8). -/
def fits (n : Nat) : Option Nat → Bool
  | none => true
  | some cap => decide (n ≤ cap)

/-- `raise E(info)` (R214): the one way an error ends a command. `info` is the pixel index and the cursor of a pixel-loop
error. The working registers keep what they held: DESIGN CHOICE, since R41 and U11 give them no value once the command has
ended
(notes/assumptions/26.md). -/
def raise (e : CmdError) (info : Option (Nat × Nat)) (s : State) : State :=
  let s := { s with eState := .idle, done := true, err := e.code }
  match info with
  | none => s
  | some (i, c) => { s with errPixel := BitVec.ofNat 64 i, errCursor := BitVec.ofNat 64 c }

/-- `complete()` (R215). The working registers keep what they held, those of the last DECODE after a LOAD or a CLEAR: DESIGN
CHOICE, since R41 and U11 give them no value there (notes/assumptions/26.md). -/
def complete (s : State) : State := { s with eState := .idle, done := true, err := 0 }

/-- The accepting branch of a CMD write (R25): OP and every ARG register latched, the last command's outcome cleared. -/
def latch (w : Word) (s : State) : State :=
  { s with eOp := opField w, latched := s.args, done := false, err := 0, errPixel := 0, errCursor := 0,
           eState := .pending }

/-- A Host write of `w` to CMD (R25): accepted when IDLE, the hazard of R250 otherwise. -/
def accept (w : Word) (s : State) : State :=
  if s.eState = .idle then latch w s else { s with hazard := true }

/-- `n` free bytes from the counter value `k` on (notes/assumptions/7.md). -/
def freeBytes (k n : Nat) : List Byte := (List.range n).map fun j => Config.freeByte (k + j)

/-- The number of bytes of the N-pixel destination window that exist in host memory. -/
def destBytes (s : State) : Nat :=
  min (Config.channels * s.work.npix) (Config.addrSpace - s.latched.destBase.toNat)

/-- The destination after a pixel-loop error (R162): unchanged under the policy `prefix`; under `any` every byte of the
N-pixel window is a free value (notes/assumptions/19.md). -/
def spoilDest (s : State) : State :=
  match s.platform.errorDest with
  | .writtenPrefix => s
  | .anyValue =>
    { s with mem := Memory.write s.mem s.latched.destBase.toNat (freeBytes s.freeNext (destBytes s)),
             freeNext := s.freeNext + destBytes s }

/-- A pixel-loop error (R184, R186, R188): `raise` with the pixel index and the cursor `c`, and the destination as R162
says. Precise: the working registers keep their values (R212; notes/assumptions/8.md). -/
def raisePixel (e : CmdError) (c : Nat) (s : State) : State :=
  raise e (some (s.work.pixel, c)) (spoilDest s)

/-- Reset of the block (R240): every block register to R42's value; host memory, the platform and the Host's side of the
interleaving stay (notes/assumptions/16.md). Of host memory R240 says so for the destination bytes a running DECODE has written;
that the bytes it has not yet written keep their values too is a DESIGN CHOICE, which R257 leaves open
(notes/assumptions/27.md). -/
def blockReset (s : State) : State :=
  { State.reset with mem := s.mem, platform := s.platform, hostProgram := s.hostProgram, turns := s.turns,
                     lastRead := s.lastRead, freeNext := s.freeNext }

end Sys2Proof.Machine
end

