-- ==== Sys2Proof/Machine/ContextLoad.lean ====
section
/-! DEFINITION. LOAD, the container parser (40_context_load.md). -/

namespace Sys2Proof.Machine

/-- The Container Parser (R102 to R108), a pure function of the palette bytes, the blob and the declared size, with its
checks in the order of R213. -/
def parse (pal blob : List Byte) (declared : Int) : Except CmdError Context :=
  if blob.length < Config.headerBytes then .error .malformedHeader
  else
    let fc := (field blob 12).toNat
    if blob.length < headerLen fc then .error .malformedHeader
    else
      let rleLen : Int := declared - (headerLen fc : Int)
      if rleLen < 0 ∨ rleLen ≠ (blob.length : Int) - (headerLen fc : Int) then .error .sizeMismatch
      else
        let palCount := pal.length / 3
        if Config.paletteCapacity < palCount then .error .paletteTooLarge
        else
          .ok { width := field blob 0, height := field blob 4, fps := field blob 8, frameCount := field blob 12,
                offsets := offsetTable blob fc, rle := (blob.drop (headerLen fc)).take rleLen.toNat,
                pal := buildPalette pal palCount, palCount := palCount }

/-- The capacity check (R102, D15): the store, the stream and the frame count against their limits. -/
def hasCapacity (s : State) (c : Context) : Bool :=
  match s.platform.maxContexts with
  | none => fits c.rle.length s.platform.maxRleBytes && fits c.frameCount.toNat s.platform.maxFrames
  | some cap =>
    decide (s.ctxs.length < cap) && fits c.rle.length s.platform.maxRleBytes
      && fits c.frameCount.toNat s.platform.maxFrames

/-- `add` (41_registry.md R131): append a context; its handle is the length before. -/
def addContext (c : Context) (s : State) : State := { s with ctxs := s.ctxs ++ [c] }

/-- The RES registers a LOAD writes (R110): the handle issued and the fields of the new context. -/
def loadResults (handle : Nat) (c : Context) : Results where
  handle := BitVec.ofNat 64 handle
  width := c.width.setWidth 64
  height := c.height.setWidth 64
  fps := c.fps.setWidth 64
  frameCount := c.frameCount.setWidth 64
  paletteSize := BitVec.ofNat 64 c.palCount

/-- The successful end of a LOAD (R109, R110). -/
def loadContext (c : Context) (s : State) : State :=
  complete { addContext c s with res := loadResults s.ctxs.length c }

/-- The outcome of a LOAD whose host reads returned `pal` and `blob` (R102 from its third line on). -/
def loadParsed (pal blob : List Byte) (s : State) : State :=
  match parse pal blob (asS64 s.latched.declaredSize) with
  | .error e => raise e none s
  | .ok c => if hasCapacity s c then loadContext c s else raise .capacityExceeded none s

/-- LOAD (R100, R102): one atomic step. Host memory is asked for the palette, then for the blob (R101); a refusal of
either leaves LOAD without a step. -/
def execLoad (s : State) : Host.Outcome State Fault Refusal :=
  if s.latched.palLen.toNat % 3 ≠ 0 then .next (raise .badCommand none s)
  else
    match hmemRead s s.latched.palBase.toNat s.latched.palLen.toNat with
    | none => .fault .hostMemoryRefused
    | some pal =>
      match hmemRead s s.latched.blobBase.toNat s.latched.blobLen.toNat with
      | none => .fault .hostMemoryRefused
      | some blob => .next (loadParsed pal blob s)

end Sys2Proof.Machine
end

