-- ==== Sys2Proof/Machine/Registry.lean ====
section
/-! DEFINITION. The context store (41_registry.md), CLEAR, and the reserved commands (30_encoding.md R78). -/

namespace Sys2Proof.Machine

/-- `get(h)` (R132): none is NotFound. -/
def getContext (ctxs : List Context) (h : Int) : Option Context :=
  if h < 0 ∨ (ctxs.length : Int) ≤ h then none else ctxs[h.toNat]?

/-- CLEAR (R135). -/
def execClear (s : State) : Host.Outcome State Fault Refusal :=
  .next (complete { s with ctxs := [] })

/-- CMD_RESERVED (R78 item 1): BadCommand in the Engine's first step, with no other effect, whatever the reserved OP. -/
def execCmdReserved (_op : Op) (s : State) : Host.Outcome State Fault Refusal :=
  .next (raise .badCommand none s)

end Sys2Proof.Machine
end

