-- ==== Sys2Proof/Machine/FrameDecode.lean ====
section
/-! DEFINITION. DECODE, the frame decode command (42_frame_decode.md): its prologue, and the functional form of a whole
frame (R160). -/

namespace Sys2Proof.Machine

/-- The working registers the prologue leaves (R156). IDX is not written there: it keeps what it held. -/
def startWork (h : Nat) (v : Context) (f : Nat) (w : Work) : Work :=
  { w with ctxIndex := h, npix := pixelCount v, pixel := 0, cursor := firstPair v f, started := false, rem := 0#8 }

/-- The prologue's four checks in their order (R151 to R155): the context and the frame index, or the error. -/
def prologue (ctxs : List Context) (l : Operands) : Except CmdError (Context × Nat) :=
  if l.destStride ≠ 4#64 then .error .badCommand
  else
    match getContext ctxs (asS64 l.handle) with
    | none => .error .notFound
    | some v =>
      if asS64 l.frame < 0 ∨ (v.frameCount.toNat : Int) ≤ asS64 l.frame then .error .frameIndexOutOfRange
      else if l.destPixels.toNat < pixelCount v then .error .bufferTooSmall
      else .ok (v, (asS64 l.frame).toNat)

/-- DECODE (R150, R151): the prologue step. The pixel steps are RUN (R181) and the completion step is R158. -/
def execDecode (s : State) : Host.Outcome State Fault Refusal :=
  match prologue s.ctxs s.latched with
  | .error e => .next (raise e none s)
  | .ok (v, f) =>
    .next { s with eState := .decoding, work := startWork (asS64 s.latched.handle).toNat v f s.work }

/-- What `decodeFrame` (R160) returns: the pixels, or the error with its pixel index, its cursor and the pixels before. -/
inductive FrameResult where
  | ok (out : List (List Byte))
  | err (e : CmdError) (i c : Nat) (out : List (List Byte))
deriving DecidableEq, Repr

/-- The loop of `decodeFrame` (R160) with `n` pixels to go. -/
def frameLoop (v : Context) (n i c : Nat) (started : Bool) (rem idx : Nat) (out : List (List Byte)) : FrameResult :=
  match n with
  | 0 => .ok out
  | n + 1 =>
    if rem = 0 then
      let c := if started then c + 2 else c
      if v.rle.length < c + 2 then .err .truncatedRunStream i c out
      else
        let len := (byteAt v.rle c).toNat
        let p := (byteAt v.rle (c + 1)).toNat
        if len = 0 then .err .zeroLengthRun i c out
        else if v.palCount ≤ p then .err .invalidPaletteIndex i c out
        else frameLoop v n (i + 1) c true (len - 1) p (out ++ [pixelBytes (v.pal.getD p Color.black)])
    else if v.palCount ≤ idx then .err .invalidPaletteIndex i c out
    else frameLoop v n (i + 1) c started (rem - 1) idx (out ++ [pixelBytes (v.pal.getD idx Color.black)])

/-- `decodeFrame(v, f)` (R160), the frame as one function. The machine does not call it; statements do. -/
def decodeFrame (v : Context) (f : Nat) : FrameResult :=
  frameLoop v (pixelCount v) 0 (2 * (v.offsets.getD f 0#32).toNat) false 0 0 []

end Sys2Proof.Machine
end

