-- ==== Sys2Proof/Machine/RunExpansion.lean ====
section
/-! DEFINITION. RUN, the run pair and the pixel step (43_run_expansion.md). -/

namespace Sys2Proof.Machine

/-- The run pair the next pixel is made from (R182). When the current run is used up it is fetched from the stream at the
next cursor, and refused when it does not lie wholly inside the stream (R184). Otherwise it is what is left of the current
run, REM pixels of index IDX, and the stream is not read (notes/assumptions/9.md). -/
def currentRun (v : Context) (w : Work) : Except DecodeError Instr :=
  if w.rem = 0#8 then decode (.stream (v.rle.drop (nextCursor w))) else .ok (.run w.rem w.idx)

/-- The fetch part of the pixel step (R181, R182, R186): with REM = 0 the pair `(l, p)` becomes the current run, or is a
zero-length pair; otherwise the current run goes on. -/
def loadRun (l p : Byte) (w : Work) : Except CmdError Work :=
  if w.rem = 0#8 then
    if l = 0#8 then .error .zeroLengthRun
    else .ok { w with cursor := nextCursor w, started := true, rem := l, idx := p }
  else .ok w

/-- The working registers after a pixel is written (R191). -/
def countPixel (w : Work) : Work := { w with pixel := w.pixel + 1, rem := w.rem - 1#8 }

/-- The pixel step (R181) with the pair `(l, p)`: fetch, palette check (R188), palette lookup (R189), pixel write (R190),
count (R191). A refused write leaves the Engine without a step (R53). -/
def pixelStep (l p : Byte) (s : State) : Host.Outcome State Fault Refusal :=
  match s.ctxs[s.work.ctxIndex]? with
  | none => .fault .noRule
  | some v =>
    match loadRun l p s.work with
    | .error e => .next (raisePixel e (nextCursor s.work) s)
    | .ok w =>
      if v.palCount ≤ w.idx.toNat then .next (raisePixel .invalidPaletteIndex w.cursor s)
      else
        match hmemWrite s (pixelAddr s.latched w.pixel) (pixelBytes (paletteEntry v w.idx)) with
        | none => .fault .hostMemoryRefused
        | some m => .next { s with mem := m, work := countPixel w }

/-- RUN L, P (R180, R181). -/
def execRun (runLength paletteIndex : Byte) (s : State) : Host.Outcome State Fault Refusal :=
  pixelStep runLength paletteIndex s

/-- RUN_ZERO (R78 item 3, R186): the pixel step with a pair of length 0, whose index is not examined. -/
def execRunZero (paletteIndex : Byte) (s : State) : Host.Outcome State Fault Refusal :=
  pixelStep 0#8 paletteIndex s

end Sys2Proof.Machine
end

