-- ==== Sys2Proof/Machine/Dispatch.lean ====
section
/-! DEFINITION. One arm per constructor of Instr. -/

namespace Sys2Proof.Machine

def exec (i : Instr) (s : State) : Host.Outcome State Fault Refusal :=
  match i with
  | .load => Sys2Proof.Machine.execLoad s
  | .decode => Sys2Proof.Machine.execDecode s
  | .clear => Sys2Proof.Machine.execClear s
  | .cmdReserved op => Sys2Proof.Machine.execCmdReserved op s
  | .run runLength paletteIndex => Sys2Proof.Machine.execRun runLength paletteIndex s
  | .runZero paletteIndex => Sys2Proof.Machine.execRunZero paletteIndex s

end Sys2Proof.Machine
end

