-- ==== Sys2Proof/Machine/Engine.lean ====
section
/-! DEFINITION. The Engine's steps (00_scope.md R12): which instruction it takes in which state (30_encoding.md R77,
42_frame_decode.md R157, R158). -/

namespace Sys2Proof.Machine

/-- One Engine step. IDLE: nothing (R230). PENDING: the command E_OP names (R77). DECODING with pixels to go: the run pair
the pixel comes from (R157, R181), or TruncatedRunStream when there is none (R184). DECODING with none to go: the completion
step (R158). -/
def engineStep (s : State) : Host.Outcome State Fault Refusal :=
  match s.eState with
  | .idle => .next s
  | .pending => exec (decodeOp s.eOp) s
  | .decoding =>
    if s.work.pixel < s.work.npix then
      match s.ctxs[s.work.ctxIndex]? with
      | none => .fault .noRule
      | some v =>
        match currentRun v s.work with
        | .error _ => .next (raisePixel .truncatedRunStream (nextCursor s.work) s)
        | .ok i => exec i s
    else if s.work.pixel = s.work.npix then .next (complete s)
    else .fault .noRule

/-- `k` Engine steps with no Host step between them. -/
def engineRun : Nat → State → Host.Outcome State Fault Refusal
  | 0, s => .next s
  | k + 1, s =>
    match engineStep s with
    | .next t => engineRun k t
    | .fault f => .fault f
    | .refused r => .refused r

/-- Whether the Engine has no step: host memory refused its request (R53, R218). -/
def engineStuck (s : State) : Bool :=
  match engineStep s with
  | .next _ => false
  | .fault .hostMemoryRefused => true
  | .fault .noRule => false
  | .fault .hostAddress => false
  | .refused _ => false

end Sys2Proof.Machine
end

