-- ==== Sys2Proof/Machine/HostPort.lean ====
section
/-! DEFINITION. The Host's steps: the register window (10_state.md R21 to R29), host memory with the hazard of
70_reset_and_hazards.md R251, WAIT (30_encoding.md R81) and reset (R240). -/

namespace Sys2Proof.Machine

/-- A read of the register at `off` (R21, R22): CMD and the reserved offsets read 0. -/
def readReg (s : State) (off : Nat) : Word :=
  if off = 0x08 then statusWord s
  else if off = 0x10 then s.args.handle
  else if off = 0x18 then s.args.frame
  else if off = 0x20 then s.args.destBase
  else if off = 0x28 then s.args.destPixels
  else if off = 0x30 then s.args.destStride
  else if off = 0x38 then s.args.palBase
  else if off = 0x40 then s.args.palLen
  else if off = 0x48 then s.args.blobBase
  else if off = 0x50 then s.args.blobLen
  else if off = 0x58 then s.args.declaredSize
  else if off = 0x60 then s.res.handle
  else if off = 0x68 then s.res.width
  else if off = 0x70 then s.res.height
  else if off = 0x78 then s.res.fps
  else if off = 0x80 then s.res.frameCount
  else if off = 0x88 then s.res.paletteSize
  else if off = 0x90 then vidCount s
  else if off = 0x98 then s.errPixel
  else if off = 0xA0 then s.errCursor
  else 0

/-- The ARG registers after a write to `off` (R21, R22): a write elsewhere leaves them alone. -/
def writeArg (a : Operands) (off : Nat) (w : Word) : Operands :=
  if off = 0x10 then { a with handle := w }
  else if off = 0x18 then { a with frame := w }
  else if off = 0x20 then { a with destBase := w }
  else if off = 0x28 then { a with destPixels := w }
  else if off = 0x30 then { a with destStride := w }
  else if off = 0x38 then { a with palBase := w }
  else if off = 0x40 then { a with palLen := w }
  else if off = 0x48 then { a with blobBase := w }
  else if off = 0x50 then { a with blobLen := w }
  else if off = 0x58 then { a with declaredSize := w }
  else a

/-- A write to the register at `off` (R22): CMD accepts a command (R25), an ARG register stores all 64 bits, RO registers
and reserved offsets ignore it. -/
def writeReg (off : Nat) (w : Word) (s : State) : State :=
  if off = 0x00 then accept w s else { s with args := writeArg s.args off w }

/-- The accesses the window admits (R22, R55): aligned, 64 bits wide, below 0x100. -/
def regAccessOk (off width : Nat) : Bool :=
  decide (width = 64) && decide (off % 8 = 0) && decide (off < Config.windowBytes)

/-- Whether an access to `n` bytes of the Host's address space from `a` on touches the register window (R58). -/
def touchesWindow (p : Config.Platform) (a n : Nat) : Bool :=
  decide (p.regBase.toNat < a + n) && decide (a < p.regBase.toNat + Config.windowBytes) && decide (0 < n)

/-- Whether host byte `x` is a live destination byte: a DECODE runs and `x` lies in its declared capacity (R251). -/
def liveDest (s : State) (x : Nat) : Bool :=
  busy s && s.eOp == 2#4 && inRange s.latched.destBase.toNat (Config.channels * s.latched.destPixels.toNat) x

/-- Whether host byte `x` is a live source byte: a LOAD runs and `x` is a palette or blob byte of it (R251). -/
def liveSource (s : State) (x : Nat) : Bool :=
  busy s && s.eOp == 1#4
    && (inRange s.latched.palBase.toNat s.latched.palLen.toNat x
      || inRange s.latched.blobBase.toNat s.latched.blobLen.toNat x)

/-- Whether a Host read of `n` bytes from `a` on is the hazard of R251. -/
def readHazard (s : State) (a n : Nat) : Bool := (List.range n).any fun k => liveDest s (a + k)

/-- Whether a Host write of `n` bytes from `a` on is the hazard of R251. -/
def writeHazard (s : State) (a n : Nat) : Bool :=
  (List.range n).any fun k => liveDest s (a + k) || liveSource s (a + k)

/-- The byte a Host read of `a + k` returns: any value where the byte is live (R251), host memory's byte elsewhere. -/
def hostByte (s : State) (a k : Nat) : Byte :=
  if liveDest s (a + k) then Config.freeByte (s.freeNext + k) else Memory.get s.mem (a + k)

/-- A Host read of `n` bytes of host memory (R50, R251; notes/assumptions/12.md). -/
def hostMemRead (a n : Nat) (s : State) : Host.Outcome State Fault Refusal :=
  if touchesWindow s.platform a n then .refused .registerAccess
  else if Config.addrSpace < a + n then .fault .hostAddress
  else
    .next { s with lastRead := .bytes ((List.range n).map (hostByte s a)),
                   hazard := s.hazard || readHazard s a n,
                   freeNext := if readHazard s a n then s.freeNext + n else s.freeNext }

/-- A Host write of host memory (R50, R251): the write happens, hazard or not. -/
def hostMemWrite (a : Nat) (bytes : List Byte) (s : State) : Host.Outcome State Fault Refusal :=
  if touchesWindow s.platform a bytes.length then .refused .registerAccess
  else if Config.addrSpace < a + bytes.length then .fault .hostAddress
  else
    .next { s with mem := Memory.write s.mem a bytes, hazard := s.hazard || writeHazard s a bytes.length }

/-- One Host action, already taken from the Host's program. WAIT goes back to its front until DONE reads 1 (R81). -/
def hostAct (a : HostAction) (s : State) : Host.Outcome State Fault Refusal :=
  match a with
  | .regRead off width =>
    if regAccessOk off width then .next { s with lastRead := .word (readReg s off) } else .refused .registerAccess
  | .regWrite off width w => if regAccessOk off width then .next (writeReg off w s) else .refused .registerAccess
  | .memRead addr n => hostMemRead addr.toNat n s
  | .memWrite addr bytes => hostMemWrite addr.toNat bytes s
  | .wait =>
    .next { s with lastRead := .word (readReg s 0x08),
                   hostProgram := if (readReg s 0x08).getLsbD 1 then s.hostProgram else .wait :: s.hostProgram }
  | .reset => .next (blockReset s)

/-- One Host step: the next action of its program; a Host with none left does nothing. -/
def hostStep (s : State) : Host.Outcome State Fault Refusal :=
  match s.hostProgram with
  | [] => .next s
  | a :: rest => hostAct a { s with hostProgram := rest }

end Sys2Proof.Machine
end

