-- ==== Sys2Proof/Machine/Turn.lean ====
section
/-! DEFINITION. The interleaving of the two agents (00_scope.md R12, 20_memory.md R60): one atomic step of one of them. -/

namespace Sys2Proof.Machine

/-- The Engine's turn: its step, or nothing when it is stuck (R53, R218: it has no step and BUSY stays 1;
notes/assumptions/6.md). -/
def engineTurn (s : State) : Host.Outcome State Fault Refusal :=
  if engineStuck s then .next s else engineStep s

/-- One step of the machine. `turns` says which agent moves; when it is empty the Engine moves if it has a step (R256),
else the Host (notes/assumptions/5.md). -/
def turnStep (s : State) : Host.Outcome State Fault Refusal :=
  match s.turns with
  | .engine :: rest => engineTurn { s with turns := rest }
  | .host :: rest => hostStep { s with turns := rest }
  | [] => if busy s && !engineStuck s then engineStep s else hostStep s

/-- A one-pixel, one-frame context over a stream, with a full palette. The model's own, for `placeWord`
(notes/assumptions/10.md). -/
def onePixelContext (rle : List Byte) : Context where
  width := 1
  height := 1
  fps := 0
  frameCount := 1
  offsets := [0]
  rle := rle
  pal := List.replicate Config.paletteCapacity Color.black
  palCount := Config.paletteCapacity

/-- Place a command word as the next instruction: accepted (R25), and the Engine to move. -/
def placeCommand (w : Word) (s : State) : State := { latch w s with turns := .engine :: s.turns }

/-- Place a run pair as the next instruction: a DECODE of frame 0 of a new context whose stream is that pair, past its
prologue, and the Engine to move. The destination stays where L_DEST_BASE points. -/
def placePair (bytes : List Byte) (s : State) : State :=
  { s with ctxs := s.ctxs ++ [onePixelContext bytes], eState := .decoding, eOp := 2#4,
           latched := { s.latched with handle := BitVec.ofNat 64 s.ctxs.length, frame := 0, destPixels := 1,
                                       destStride := 4 },
           done := false, err := 0, errPixel := 0, errCursor := 0,
           work := startWork s.ctxs.length (onePixelContext bytes) 0 s.work, turns := .engine :: s.turns }

/-- Place an instruction where the next step takes it from (notes/assumptions/10.md). -/
def placeWord (nbits w : Nat) (s : State) : State :=
  if isPairWidth nbits then placePair (pairOfNat w) s else placeCommand (BitVec.ofNat 64 w) s

end Sys2Proof.Machine
end

