-- ==== Sys2Proof/Machine/Step.lean ====
section
/-! DEFINITION. The step of the machine (00_scope.md R12), and the placing of an instruction for the next step. -/

namespace Sys2Proof.Machine

/-- One step of the machine: one atomic transition of one agent (R12, R60). -/
def step (s : State) : Host.Outcome State Fault Refusal := turnStep s

/-- The state with an instruction's bits placed so that the very next step runs it (notes/assumptions/10.md). -/
def State.withFetchWord (s : State) (nbits w : Nat) : State := placeWord nbits w s

end Sys2Proof.Machine
end

