-- ==== Sys2Proof/Machine/Assembly.lean ====
section
/-! DEFINITION. The assembler forms of 30_encoding.md R81 and R82: host commands as Host actions, container source as the
bytes of a blob (R70) and of a palette (R74). No step of the machine uses them (D25). -/

namespace Sys2Proof.Machine

/-- `FILL n, P` (R82). -/
def fill (n : Nat) (p : Byte) : List Instr :=
  List.replicate (n / 255) (.run 255#8 p) ++ if n % 255 = 0 then [] else [.run (BitVec.ofNat 8 (n % 255)) p]

/-- A line of a frame's container source (R81). -/
inductive StreamItem where
  | run (runLength paletteIndex : Byte)
  | fill (n : Nat) (paletteIndex : Byte)
  | bytes (raw : List Byte)
deriving DecidableEq, Repr

/-- Container source (R81): `.video`, the stream lines before the first `.frame`, the `.frame`s with their lines, `.palette`.
R81 does not say whether lines may stand before the first `.frame`; DESIGN CHOICE: they may, and the first frame's offset counts
their run pairs (notes/assumptions/21.md). -/
structure Source where
  width : U32
  height : U32
  fps : U32
  lead : List StreamItem
  frames : List (List StreamItem)
  palette : List Color
deriving DecidableEq, Repr

/-- The stream bytes of one instruction; a command has none (R75). -/
def streamBytes (i : Instr) : List Byte :=
  match encode i with
  | .stream bytes => bytes
  | .command _ => []

/-- The bytes a line appends to `rle_data` (R81). -/
def StreamItem.encoded : StreamItem → List Byte
  | .run l p => [l, p]
  | .fill n p => (Machine.fill n p).flatMap streamBytes
  | .bytes raw => raw

/-- The run pairs a line emits (R81); raw bytes emit none (notes/assumptions/21.md). -/
def StreamItem.pairs : StreamItem → Nat
  | .run _ _ => 1
  | .fill n p => (Machine.fill n p).length
  | .bytes _ => 0

/-- The frame offsets: the number of run pairs emitted before each `.frame` (R81), from `n` on. -/
def frameOffsets (n : Nat) : List (List StreamItem) → List U32
  | [] => []
  | f :: fs => BitVec.ofNat 32 n :: frameOffsets (n + (f.map StreamItem.pairs).sum) fs

/-- A 32-bit field as its four little-endian bytes (R54, R70). -/
def u32Bytes (v : U32) : List Byte :=
  [v.extractLsb' 0 8, v.extractLsb' 8 8, v.extractLsb' 16 8, v.extractLsb' 24 8]

/-- `rle_data` of a source: its lines in order (R81). -/
def Source.rle (c : Source) : List Byte := (c.lead ++ c.frames.flatten).flatMap StreamItem.encoded

/-- The frame offsets of a source: the run pairs emitted before each `.frame` (R81). -/
def Source.offsets (c : Source) : List U32 := frameOffsets (c.lead.map StreamItem.pairs).sum c.frames

/-- The container blob of a source (R70, R81). R81 makes frame_count the number of `.frame` lines and R70 gives it 32 bits; what a
source of 2^32 `.frame` lines or more assembles to is not said. DESIGN CHOICE: the number is held modulo 2^32
(notes/assumptions/21.md). -/
def Source.blob (c : Source) : List Byte :=
  u32Bytes c.width ++ u32Bytes c.height ++ u32Bytes c.fps ++ u32Bytes (BitVec.ofNat 32 c.frames.length)
    ++ c.offsets.flatMap u32Bytes ++ c.rle

/-- The palette bytes of a source (R74, R81). -/
def Source.paletteBytes (c : Source) : List Byte := c.palette.flatMap fun k => [k.r, k.g, k.b]

/-- `W REG, v` (R81): one 64-bit write. -/
def writeCmd (off : Nat) (v : Word) : HostAction := .regWrite off 64 v

/-- `LOAD pal=A,n blob=B,m size=s` (R81). -/
def loadCmd (palBase palLen blobBase blobLen size : Word) : List HostAction :=
  [writeCmd 0x38 palBase, writeCmd 0x40 palLen, writeCmd 0x48 blobBase, writeCmd 0x50 blobLen, writeCmd 0x58 size,
   writeCmd 0x00 1#64]

/-- `DECODE h, f, dest=D, pixels=c` (R81). -/
def decodeCmd (h f dest pixels : Word) : List HostAction :=
  [writeCmd 0x10 h, writeCmd 0x18 f, writeCmd 0x20 dest, writeCmd 0x28 pixels, writeCmd 0x30 4#64, writeCmd 0x00 2#64]

/-- `CLEAR` (R81). -/
def clearCmd : List HostAction := [writeCmd 0x00 3#64]

end Sys2Proof.Machine
end

