-- ==== Sys2Proof/Safety.lean ====
section
/-! DEFINITION. What counts as a safe run (10_state.md R38, 70_reset_and_hazards.md R257), and the invariant of the
machine: the facts the spec states of every state a run reaches. -/

namespace Sys2Proof.Safety

open Sys2Proof.Machine

/-- A faulted state: HAZARD is set (R38, R217). -/
def faulted (s : State) : Prop := s.hazard = true

/-- The last accepted command has ended (R257). -/
def ended (s : State) : Prop := s.eState = .idle ∧ s.done = true

/-- A successful end of a run: a command has ended without error, the Host has nothing left to do, and the state is not
faulted (R38: never a successful end with HAZARD = 1). -/
def succeeded (s : State) : Prop := ended s ∧ s.err = 0 ∧ s.hostProgram = [] ∧ ¬ faulted s

/-- A final state: no agent has anything left to do (stuck is not final, R218: BUSY stays 1), and no fault (R38). -/
def final (s : State) : Prop := s.eState = .idle ∧ s.hostProgram = [] ∧ ¬ faulted s

/-- What R34, R35 and R51 say of a context: the tables have the lengths their counts give, the palette has 256 entries of
which those from pal_count on are black, and the stream is no longer than a blob can be. -/
structure ContextOk (c : Context) : Prop where
  offsets_length : c.offsets.length = c.frameCount.toNat
  pal_length : c.pal.length = Config.paletteCapacity
  pal_count : c.palCount ≤ Config.paletteCapacity
  pal_rest : ∀ k, c.palCount ≤ k → c.pal.getD k Color.black = Color.black
  rle_length : c.rle.length < 2 ^ 64

/-- What R31, R32, R154, R182 and R191 say of the working registers while a DECODE of the context `v` is past its
prologue. -/
structure WorkOk (l : Operands) (v : Context) (w : Work) : Prop where
  npix : w.npix = pixelCount v
  capacity : w.npix ≤ l.destPixels.toNat
  stride : l.destStride = 4#64
  pixel : w.pixel ≤ w.npix
  cursor_even : w.cursor % 2 = 0
  cursor_bound : w.cursor ≤ max (2 * (2 ^ 32 - 1)) v.rle.length
  fresh : w.started = false → w.pixel = 0 ∧ w.rem = 0#8
  in_stream : w.started = true → w.cursor + 2 ≤ v.rle.length
  current_idx : w.started = true → w.idx = byteAt v.rle (w.cursor + 1) ∧ w.idx.toNat < v.palCount
  current_rem : w.started = true → w.rem.toNat < (byteAt v.rle w.cursor).toNat

/-- The invariant of the machine. -/
structure Inv (s : State) : Prop where
  /-- host memory keeps its canonical form -/
  mem_wf : Memory.wf s.mem = true
  /-- every context is as R34 and R35 say -/
  contexts : ∀ c ∈ s.ctxs, ContextOk c
  /-- DONE is 0 from acceptance to the end of the command (R26) -/
  done_idle : s.done = true → s.eState = .idle
  /-- ERR is 0 while a command runs (R26) -/
  err_done : s.done = false → s.err = 0
  /-- the reserved ERR codes are never written (R210, U15) -/
  err_code : s.err.toNat ≤ 11
  /-- ERR_PIXEL and ERR_CURSOR are 0 unless ERR is a pixel-loop error (R29) -/
  err_info : s.err ≠ 6 → s.err ≠ 7 → s.err ≠ 8 → s.errPixel = 0 ∧ s.errCursor = 0
  /-- a DECODING engine runs a DECODE of a context of the store (R30, R31) -/
  decoding : s.eState = .decoding →
    s.eOp = 2 ∧ ∃ v, s.ctxs[s.work.ctxIndex]? = some v ∧ WorkOk s.latched v s.work

end Sys2Proof.Safety
end

