-- ==== Sys2Proof/Certificates/Slice0/Obligations.lean ====
section
/-! DEFINITION. The statements for the provers, in the order of the spec's files. Each docstring names the rules it
formalises. -/

namespace Sys2Proof.Claims

open Sys2Proof.Machine

/-- What a machine step answers. -/
abbrev Answer := Host.Outcome State Fault Refusal

/-- A function on the next state of an answer; a stop stays as it is. -/
def mapNext (f : State → State) : Answer → Answer
  | .next t => .next (f t)
  | .fault e => .fault e
  | .refused r => .refused r

/-- What the machine's step answers on an Engine turn whose instruction answered `o`: a refused host request passes the
turn with the state unchanged (R53, R218; the model's form, notes/assumptions/6.md), any other answer is the step's. -/
def turnAnswer (s : State) : Answer → Answer
  | .next t => .next t
  | .fault .hostMemoryRefused => .next s
  | .fault .noRule => .fault .noRule
  | .fault .hostAddress => .fault .hostAddress
  | .refused r => .refused r

/-- The state R214 leaves when a command ends with the error of code `code` and no info. -/
def errorEnd (code : BitVec 4) (s : State) : State := { s with eState := .idle, done := true, err := code }

/-- The state R214 leaves when a DECODE ends in its pixel loop with the error of code `code`, at cursor `c`. -/
def pixelErrorEnd (code : BitVec 4) (c : Nat) (s : State) : State :=
  { s with eState := .idle, done := true, err := code, errPixel := BitVec.ofNat 64 s.work.pixel,
           errCursor := BitVec.ofNat 64 c }

/-- The answer `o` of a step that ends a DECODE in its pixel loop with the error of code `code`, at cursor `c`: R214's state and
nothing else, but for the destination, which is as the policy says (R162): unchanged under `prefix`, under `any` changed in the
N-pixel window only (and free values of the model used, notes/assumptions/7.md). -/
def endsInPixelError (code : BitVec 4) (c : Nat) (s : State) (o : Answer) : Prop :=
  ∃ t, o = .next t ∧ t = { pixelErrorEnd code c s with mem := t.mem, freeNext := t.freeNext } ∧
    (s.platform.errorDest = .writtenPrefix → t.mem = s.mem ∧ t.freeNext = s.freeNext) ∧
    ∀ a, a < s.latched.destBase.toNat ∨ s.latched.destBase.toNat + 4 * s.work.npix ≤ a →
      Memory.get t.mem a = Memory.get s.mem a

/-- The little-endian 32-bit value of four bytes of host memory (R11). -/
def memU32 (m : Memory) (a : Nat) : Nat :=
  (Memory.get m a).toNat + 256 * (Memory.get m (a + 1)).toNat + 65536 * (Memory.get m (a + 2)).toNat
    + 16777216 * (Memory.get m (a + 3)).toNat

/-- Every byte of host memory reads as before. -/
def memSame (s t : State) : Prop := ∀ a, Memory.get t.mem a = Memory.get s.mem a

/-- Every byte of host memory outside the `n` bytes from `lo` on reads as before. -/
def memSameOutside (lo n : Nat) (s t : State) : Prop :=
  ∀ a, a < lo ∨ lo + n ≤ a → Memory.get t.mem a = Memory.get s.mem a

/-- The state no Engine step writes: the ARG registers, E_OP, the latched operands, HAZARD, the platform, the Host's program,
its last read, and the turns. -/
def hostSideSame (s t : State) : Prop :=
  t.args = s.args ∧ t.eOp = s.eOp ∧ t.latched = s.latched ∧ t.hazard = s.hazard ∧ t.platform = s.platform ∧
    t.hostProgram = s.hostProgram ∧ t.lastRead = s.lastRead ∧ t.turns = s.turns

/-- LOAD's host reads are well formed and admitted (R101, R102): its first check passes. -/
def loadReads (s : State) : Prop :=
  s.latched.palLen.toNat % 3 = 0 ∧
    hmemAdmit s.platform s.latched.palBase.toNat s.latched.palLen.toNat .read = true ∧
    hmemAdmit s.platform s.latched.blobBase.toNat s.latched.blobLen.toNat .read = true

/-- The frame_count of the blob LOAD reads (R70). -/
def loadFrameCount (s : State) : Nat := memU32 s.mem (s.latched.blobBase.toNat + 12)

/-- The length of header and offset table of the blob LOAD reads (R103). -/
def loadHeader (s : State) : Nat := 16 + 4 * loadFrameCount s

/-- The store, the stream and the frame count are inside their capacities (R102, D15). -/
def loadFits (s : State) : Prop :=
  (∀ cap, s.platform.maxContexts = some cap → s.ctxs.length < cap) ∧
    (∀ cap, s.platform.maxRleBytes = some cap → s.latched.blobLen.toNat - loadHeader s ≤ cap) ∧
    (∀ cap, s.platform.maxFrames = some cap → loadFrameCount s ≤ cap)

/-- A DECODE is accepted, its four prologue checks pass for the context `v` and the frame `f` (R151), and host memory admits
every pixel write (R190). -/
def decodeReady (s : State) (v : Context) (f : Nat) : Prop :=
  s.eState = .pending ∧ s.eOp = 2 ∧ s.latched.destStride = 4 ∧ 0 ≤ asS64 s.latched.handle ∧
    s.ctxs[(asS64 s.latched.handle).toNat]? = some v ∧ asS64 s.latched.frame = f ∧ f < v.frameCount.toNat ∧
    v.width.toNat * v.height.toNat ≤ s.latched.destPixels.toNat ∧
    ∀ i, i < v.width.toNat * v.height.toNat → hmemAdmit s.platform (pixelAddr s.latched i) 4 .write = true

/-- The pixels `out` stand at the destination of `s`, and every other byte of host memory reads as before (R160, R162). -/
def pixelsWritten (out : List (List Byte)) (s t : State) : Prop :=
  (∀ i k, i < out.length → k < 4 →
      Memory.get t.mem (pixelAddr s.latched i + k) = (out.getD i []).getD k 0) ∧
    memSameOutside s.latched.destBase.toNat (4 * out.length) s t

/-- The cursor a pixel step works at (R182): where it fetches, that of the fetch; else that of the current run. -/
def stepCursor (w : Work) : Nat := if w.rem = 0 then (if w.started then w.cursor + 2 else w.cursor) else w.cursor

/-- The run pairs a line of container source emits (R81, R82); raw bytes emit none (notes/assumptions/21.md). -/
def linePairs : StreamItem → Nat
  | .run _ _ => 1
  | .fill n _ => n / 255 + (if n % 255 = 0 then 0 else 1)
  | .bytes _ => 0

/-- The stream bytes of a line of container source (R75, R81, R82). -/
def lineBytes : StreamItem → List Byte
  | .run l p => [l, p]
  | .fill n p =>
    (List.replicate (n / 255) [0xFF, p]).flatten ++ (if n % 255 = 0 then [] else [BitVec.ofNat 8 (n % 255), p])
  | .bytes raw => raw

/-- The `n` host addresses from `a` on and the register window have an address in common (R58). -/
def meetsWindow (s : State) (a n : Nat) : Prop :=
  ∃ x, a ≤ x ∧ x < a + n ∧ s.platform.regBase.toNat ≤ x ∧ x < s.platform.regBase.toNat + 0x100

/-- The Host is the agent of the next step (notes/assumptions/5.md): its turn is named, or no turn is and the Engine has no step. -/
def hostMoves (s : State) : Prop :=
  (∃ rest, s.turns = .host :: rest) ∨
    s.turns = [] ∧ (s.eState = .idle ∨ engineStep s = .fault .hostMemoryRefused)

/-- The Host action is an access to host memory that runs past its last byte (R50; notes/assumptions/12.md). -/
def pastMemory (s : State) : HostAction → Prop
  | .memRead a n => ¬ meetsWindow s a.toNat n ∧ 2 ^ 64 < a.toNat + n
  | .memWrite a bs => ¬ meetsWindow s a.toNat bs.length ∧ 2 ^ 64 < a.toNat + bs.length
  | .regRead _ _ => False
  | .regWrite _ _ _ => False
  | .wait => False
  | .reset => False

/-- The Host action is an access to the register window that R55 refuses. -/
def refusedAccess (s : State) : HostAction → Prop
  | .memRead a n => meetsWindow s a.toNat n
  | .memWrite a bs => meetsWindow s a.toNat bs.length
  | .regRead off width => ¬(width = 64 ∧ off % 8 = 0 ∧ off < 0x100)
  | .regWrite off width _ => ¬(width = 64 ∧ off % 8 = 0 ∧ off < 0x100)
  | .wait => False
  | .reset => False

/-- The offsets of the RW registers (R21). -/
def argOffsets : List Nat := [0x10, 0x18, 0x20, 0x28, 0x30, 0x38, 0x40, 0x48, 0x50, 0x58]

/-- The Host's step resets the block (R240). -/
def resets (s t : State) : Prop :=
  s.hostProgram = .reset :: t.hostProgram ∧ t.eState = .idle ∧ t.done = false ∧ t.ctxs = [] ∧ t.res = Results.zero ∧
    t.hazard = false

end Sys2Proof.Claims

open Sys2Proof Sys2Proof.Machine Sys2Proof.Safety Sys2Proof.Claims

/-! ### 10_state.md: registers, reset -/

/-- R42, the values the spec gives: the store empty, STATUS, every ARG and RES register, ERR_PIXEL and ERR_CURSOR 0,
E_STATE IDLE, HAZARD 0, as state and as the Host reads it. The working registers and host memory, to which R42 gives no value,
are not in it. -/
def Obligations.ResetLeavesTheSpecValues : Prop :=
  State.reset.ctxs = [] ∧ State.reset.args = Operands.zero ∧ State.reset.res = Results.zero ∧
    State.reset.errPixel = 0 ∧ State.reset.errCursor = 0 ∧ State.reset.eState = .idle ∧ State.reset.hazard = false ∧
    ∀ k, k < 32 → hostAct (.regRead (8 * k) 64) State.reset = .next { State.reset with lastRead := .word 0 }

/-- R240: a reset at any time puts the block's state to R42's values, abandons a running command, and keeps host memory. R240
says so of the destination bytes already written; that the rest of the destination is kept as well is the model's choice
(notes/assumptions/27.md). -/
def Obligations.ResetAbandonsTheCommand : Prop :=
  ∀ (s : State) (rest : List HostAction), s.hostProgram = .reset :: rest →
    ∃ t, hostStep s = .next t ∧ t.ctxs = [] ∧ statusWord t = 0 ∧ t.args = Operands.zero ∧ t.res = Results.zero ∧
      t.errPixel = 0 ∧ t.errCursor = 0 ∧ t.eState = .idle ∧ t.hazard = false ∧ t.mem = s.mem

/-- R21, R22, R55: an RW register reads back what was written and no other register changes; a write to an RO register or a
reserved offset changes nothing; a read changes nothing but what the Host has read; CMD and the reserved offsets read 0;
a write to CMD is admitted too, and every other access is refused. The last two clauses, on the Host's accesses to host memory, are
the model's form (notes/assumptions/12.md): one that meets the window is refused, one past the last byte stops. -/
def Obligations.RegisterWindowAccessRules : Prop :=
  (∀ (s : State) (off : Nat) (w : Word), off ∈ argOffsets →
    ∃ t, hostAct (.regWrite off 64 w) s = .next t ∧ readReg t off = w ∧
      (∀ off', off' ≠ off → readReg t off' = readReg s off') ∧ t = { s with args := t.args }) ∧
  (∀ (s : State) (off : Nat) (w : Word), off % 8 = 0 → off < 0x100 → off ≠ 0 → off ∉ argOffsets →
    hostAct (.regWrite off 64 w) s = .next s) ∧
  (∀ (s : State) (off : Nat), off % 8 = 0 → off < 0x100 →
    hostAct (.regRead off 64) s = .next { s with lastRead := .word (readReg s off) }) ∧
  (∀ (s : State) (off : Nat), off = 0 ∨ 0xA8 ≤ off → readReg s off = 0) ∧
  (∀ (s : State) (w : Word), ∃ t, hostAct (.regWrite 0 64 w) s = .next t ∧ t.args = s.args) ∧
  (∀ (s : State) (off width : Nat) (w : Word), ¬(width = 64 ∧ off % 8 = 0 ∧ off < 0x100) →
    hostAct (.regRead off width) s = .refused .registerAccess ∧
      hostAct (.regWrite off width w) s = .refused .registerAccess) ∧
  (∀ (s : State) (a : Addr) (bs : List Byte), meetsWindow s a.toNat bs.length →
    hostAct (.memRead a bs.length) s = .refused .registerAccess ∧
      hostAct (.memWrite a bs) s = .refused .registerAccess) ∧
  (∀ (s : State) (a : Addr) (bs : List Byte), ¬ meetsWindow s a.toNat bs.length → 2 ^ 64 < a.toNat + bs.length →
    hostAct (.memRead a bs.length) s = .fault .hostAddress ∧ hostAct (.memWrite a bs) s = .fault .hostAddress)

/-- R21, R28: which register of the state the Host reads at each offset of the window. VID_COUNT is the length of the store, as a
64-bit register shows it (notes/assumptions/15.md). -/
def Obligations.RegisterMapReadsState : Prop :=
  ∀ s : State,
    readReg s 0x10 = s.args.handle ∧ readReg s 0x18 = s.args.frame ∧ readReg s 0x20 = s.args.destBase ∧
      readReg s 0x28 = s.args.destPixels ∧ readReg s 0x30 = s.args.destStride ∧ readReg s 0x38 = s.args.palBase ∧
      readReg s 0x40 = s.args.palLen ∧ readReg s 0x48 = s.args.blobBase ∧ readReg s 0x50 = s.args.blobLen ∧
      readReg s 0x58 = s.args.declaredSize ∧ readReg s 0x60 = s.res.handle ∧ readReg s 0x68 = s.res.width ∧
      readReg s 0x70 = s.res.height ∧ readReg s 0x78 = s.res.fps ∧ readReg s 0x80 = s.res.frameCount ∧
      readReg s 0x88 = s.res.paletteSize ∧ (readReg s 0x90).toNat = s.ctxs.length % 2 ^ 64 ∧
      readReg s 0x98 = s.errPixel ∧ readReg s 0xA0 = s.errCursor

/-- R26: the fields of STATUS as the Host reads them, and its other bits 0. -/
def Obligations.StatusWordFields : Prop :=
  ∀ s : State,
    (readReg s 0x08).getLsbD 0 = decide (s.eState ≠ .idle) ∧ (readReg s 0x08).getLsbD 1 = s.done ∧
      (readReg s 0x08).extractLsb' 8 4 = s.err ∧ (readReg s 0x08).getLsbD 16 = s.hazard ∧
      ∀ k, k ≠ 0 → k ≠ 1 → ¬(8 ≤ k ∧ k ≤ 11) → k ≠ 16 → (readReg s 0x08).getLsbD k = false

/-- R25, R250: a write to CMD while IDLE latches OP and every ARG register, clears the last command's outcome and makes the
command pending; while a command runs it sets HAZARD and has no other effect. The operands being latched, an Engine step does
the same whatever the ARG registers hold, and leaves them as they are (R252). -/
def Obligations.CommandAcceptance : Prop :=
  (∀ (s : State) (w : Word), s.eState = .idle →
    hostAct (.regWrite 0 64 w) s =
      .next { s with eOp := w.extractLsb' 0 4, latched := s.args, done := false, err := 0, errPixel := 0,
                     errCursor := 0, eState := .pending }) ∧
  (∀ (s : State) (w : Word), s.eState ≠ .idle →
    hostAct (.regWrite 0 64 w) s = .next { s with hazard := true }) ∧
  (∀ (s : State) (a : Operands),
    engineStep { s with args := a } = mapNext (fun t => { t with args := a }) (engineStep s))

/-- R24, R78 item 2: only bits 3:0 of the word written to CMD matter. -/
def Obligations.CommandWordHighBitsIgnored : Prop :=
  ∀ (w w' : Word), (∀ k, k < 4 → w.getLsbD k = w'.getLsbD k) →
    decode (.command w) = decode (.command w') ∧
      ∀ s, hostAct (.regWrite 0 64 w) s = hostAct (.regWrite 0 64 w') s

/-- R37: LOAD appends one context at the end and CLEAR empties the store; nothing else changes it, but a reset (R240). The
handle a LOAD issues is the length before (R131), shown as a 64-bit register shows it. -/
def Obligations.ContextStoreIsAppendOnly : Prop :=
  ∀ s t : State, step s = .next t →
    t.ctxs = s.ctxs ∨
    (∃ c, t.ctxs = s.ctxs ++ [c] ∧ s.eState = .pending ∧ s.eOp = 1 ∧ t.eState = .idle ∧ t.done = true ∧ t.err = 0 ∧
      t.res.handle = BitVec.ofNat 64 s.ctxs.length) ∨
    (t.ctxs = [] ∧ s.eState = .pending ∧ s.eOp = 3 ∧ t.eState = .idle ∧ t.done = true ∧ t.err = 0) ∨
    resets s t

/-- R27: the RES registers are written only by a LOAD that succeeds, and by a reset (R240). -/
def Obligations.ResultsWrittenOnlyByLoad : Prop :=
  ∀ s t : State, step s = .next t → t.res ≠ s.res →
    (s.eState = .pending ∧ s.eOp = 1 ∧ t.eState = .idle ∧ t.done = true ∧ t.err = 0) ∨ resets s t

/-- R38, R217: HAZARD, once set, stays set in every step but a reset; it is set only by a Host step while a command runs
(R250, R251); a state with HAZARD = 1 is neither final nor a successful end. -/
def Obligations.HazardIsSticky : Prop :=
  (∀ s t : State, step s = .next t → s.hazard = true → t.hazard = true ∨ resets s t) ∧
  (∀ s t : State, step s = .next t → s.hazard = false → t.hazard = true →
    s.eState ≠ .idle ∧
      ((∃ w, s.hostProgram = .regWrite 0 64 w :: t.hostProgram) ∨
       (∃ a n, s.hostProgram = .memRead a n :: t.hostProgram ∧ ∃ k, k < n ∧ liveDest s (a.toNat + k) = true) ∨
       (∃ a bs, s.hostProgram = .memWrite a bs :: t.hostProgram ∧
          ∃ k, k < bs.length ∧ (liveDest s (a.toNat + k) = true ∨ liveSource s (a.toNat + k) = true)))) ∧
  (∀ s : State, s.hazard = true → ¬ final s ∧ ¬ succeeded s)

/-- R41: no rule reads a working register before a DECODE writes it. An Engine step outside DECODING does the same whatever
the working registers hold, but that a DECODE prologue leaves IDX as it was; and a DECODING step with REM = 0 does the same
whatever IDX holds. The second is the model's form of "written in the first fetch": where the command goes on, IDX is the
fetched one. -/
def Obligations.WorkingRegistersUnreadBeforeWritten : Prop :=
  (∀ (s : State) (w : Work), s.eState ≠ .decoding →
    mapNext (fun t => { t with work := if t.eState = .decoding then { t.work with idx := 0 } else Work.zero })
        (engineStep { s with work := w }) =
      mapNext (fun t => { t with work := if t.eState = .decoding then { t.work with idx := 0 } else Work.zero })
        (engineStep s)) ∧
  (∀ (s : State) (x : Byte), s.eState = .decoding → s.work.rem = 0 →
    mapNext (fun t => if t.eState = .decoding then t else { t with work := Work.zero })
        (engineStep { s with work := { s.work with idx := x } }) =
      mapNext (fun t => if t.eState = .decoding then t else { t with work := Work.zero }) (engineStep s))

/-- R25, R30, R42: E_OP and the latched operands are written at acceptance before use. While IDLE, every Host action does the
same whatever they hold, up to what they hold themselves where the block stays idle. So the value the model gives them at reset
(notes/assumptions/1.md) can be seen in no run. -/
def Obligations.LatchedOperandsUnreadWhileIdle : Prop :=
  ∀ (a : HostAction) (s : State) (l : Operands) (o : Op), s.eState = .idle →
    mapNext (fun t => if t.eState = .idle then { t with latched := Operands.zero, eOp := 0 } else t)
        (hostAct a { s with latched := l, eOp := o }) =
      mapNext (fun t => if t.eState = .idle then { t with latched := Operands.zero, eOp := 0 } else t) (hostAct a s)

/-! ### 20_memory.md: host memory -/

/-- R11, R50: after a Host write of host memory a Host read of the same bytes returns them, every other byte reads as before,
and the canonical form is kept. The accesses are inside host memory and do not touch the register window. -/
def Obligations.HostMemoryReadBack : Prop :=
  ∀ (s : State) (a : Addr) (bs : List Byte), Memory.wf s.mem = true → s.eState = .idle →
    a.toNat + bs.length ≤ 2 ^ 64 → touchesWindow s.platform a.toNat bs.length = false →
    ∃ t u, hostAct (.memWrite a bs) s = .next t ∧ t = { s with mem := t.mem } ∧ Memory.wf t.mem = true ∧
      memSameOutside a.toNat bs.length s t ∧
      hostAct (.memRead a bs.length) t = .next u ∧ u.lastRead = .bytes bs ∧ u = { t with lastRead := u.lastRead }

/-- R53, R101, R181, R218: a LOAD whose host reads are refused and a DECODE whose pixel write is refused have no step; on
the Engine's turn the machine stays as it is, the command does not end and BUSY stays 1. -/
def Obligations.RefusedRequestLeavesTheEngineStuck : Prop :=
  (∀ s : State, s.latched.palLen.toNat % 3 = 0 →
    (hmemAdmit s.platform s.latched.palBase.toNat s.latched.palLen.toNat .read = false ∨
      hmemAdmit s.platform s.latched.blobBase.toNat s.latched.blobLen.toNat .read = false) →
    exec .load s = .fault .hostMemoryRefused) ∧
  (∀ (s : State) (v : Context) (l p : Byte), s.ctxs[s.work.ctxIndex]? = some v →
    (s.work.rem = 0 → l ≠ 0 ∧ p.toNat < v.palCount) → (s.work.rem ≠ 0 → s.work.idx.toNat < v.palCount) →
    hmemAdmit s.platform (pixelAddr s.latched s.work.pixel) 4 .write = false →
    exec (.run l p) s = .fault .hostMemoryRefused) ∧
  (∀ (p : Config.Platform) (a n : Nat) (kind : Config.AccessKind), 2 ^ 64 < a + n → hmemAdmit p a n kind = false) ∧
  (∀ (s : State) (rest : List Agent), s.turns = .engine :: rest → s.eState ≠ .idle →
    engineStep { s with turns := rest } = .fault .hostMemoryRefused →
    ∃ t, step s = .next t ∧ t = { s with turns := rest } ∧ (readReg t 0x08).getLsbD 0 = true)

/-- R50: the Engine reads host memory only in a LOAD and writes it only in a DECODE. Outside a pending LOAD an Engine step
does the same whatever host memory holds, but for host memory itself; outside DECODING it leaves host memory as it is. -/
def Obligations.EngineUsesOfHostMemory : Prop :=
  (∀ (s : State) (m : Memory), ¬(s.eState = .pending ∧ s.eOp = 1) →
    mapNext (fun t => { t with mem := [] }) (engineStep { s with mem := m }) =
      mapNext (fun t => { t with mem := [] }) (engineStep s)) ∧
  (∀ s t : State, engineStep s = .next t → s.eState ≠ .decoding → memSame s t)

/-! ### 30_encoding.md: encodings -/

/-- R24, R75, R77, R78: words and pairs written out from the encoding tables decode to the instructions they stand for
(the vectors E-1 to E-6 of 95_test_vectors.md). -/
def Obligations.WordsWrittenOutDecode : Prop :=
  decode (.command 0b0001#64) = .ok .load ∧ decode (.command 0x12#64) = .ok .decode ∧
    decode (.command 0b0011#64) = .ok .clear ∧ decode (.command 0x0#64) = .ok (.cmdReserved 0x0#4) ∧
    decode (.command 0xF#64) = .ok (.cmdReserved 0xF#4) ∧ decode (.stream [0x04#8, 0x00#8]) = .ok (.run 4#8 0#8) ∧
    decode (.stream [0xFF#8, 0x01#8]) = .ok (.run 255#8 1#8) ∧ decode (.stream [0x00#8, 0x05#8]) = .ok (.runZero 5#8) ∧
    decodeTableWord 16 0x01FF = some (.run 255#8 1#8) ∧ decodeTableWord 64 0x4 = some (.cmdReserved 4#4)

/-- R75, R77, R78: decode and encode agree. Decoding the encoding of a well-formed instruction gives it back; what the decoder
reads is well formed; and re-encoding a decoded run pair gives its two bytes, a decoded command its OP. -/
def Obligations.DecodeAndEncodeAgree : Prop :=
  (∀ i : Instr, i.wf = true → decode (encode i) = .ok i) ∧
  (∀ (c : Code) (i : Instr), decode c = .ok i → i.wf = true) ∧
  (∀ (l p : Byte) (rest : List Byte) (i : Instr), decode (.stream (l :: p :: rest)) = .ok i →
    encode i = .stream [l, p]) ∧
  (∀ (w : Word) (i : Instr), decode (.command w) = .ok i →
    encode i = .command (BitVec.ofNat 64 (w.toNat % 16)))

/-- R75, R79: a run pair is two bytes; read as the 16-bit little-endian value `p` its length is bits 7:0 and its palette
index bits 15:8; a length of 0 is RUN_ZERO, any other a RUN; with fewer than two bytes there is no pair. -/
def Obligations.RunPairFields : Prop :=
  (∀ (p : BitVec 16) (l x : Byte) (rest : List Byte), p.toNat = l.toNat + 256 * x.toNat →
    decode (.stream (l :: x :: rest)) =
      .ok (if p.extractLsb' 0 8 = 0 then .runZero (p.extractLsb' 8 8)
        else .run (p.extractLsb' 0 8) (p.extractLsb' 8 8))) ∧
  (∀ bytes : List Byte, bytes.length < 2 → decode (.stream bytes) = .error .truncatedPair)

/-- R82: `FILL n, P` is `n div 255` copies of `RUN 255, P` followed, when `n mod 255` is not 0, by one RUN of that length;
its lengths add up to `n`, every pair has index `P` and none is of zero length. -/
def Obligations.FillExpansion : Prop :=
  ∀ (n : Nat) (p : Byte),
    (fill n p = List.replicate (n / 255) (.run 255 p) ∧ n % 255 = 0 ∨
      ∃ r : Byte, r.toNat = n % 255 ∧ r ≠ 0 ∧ fill n p = List.replicate (n / 255) (.run 255 p) ++ [.run r p]) ∧
    (∀ i ∈ fill n p, ∃ l : Byte, i = .run l p ∧ l ≠ 0) ∧
    ((fill n p).map fun i => match i with
      | .run l _ => l.toNat
      | .runZero _ => 0
      | .load => 0
      | .decode => 0
      | .clear => 0
      | .cmdReserved _ => 0).sum = n

/-- R70, R74, R81, R102: the container parser reads back what the container source says: the four header fields, for each frame the
number of run pairs the lines before it emit, the bytes of all lines in order as the stream, and the palette. That raw bytes emit no
pair, that lines may stand before the first `.frame`, and that an offset is held modulo 2^32 are the model's choices
(notes/assumptions/21.md). -/
def Obligations.ParseReadsTheAssembledSource : Prop :=
  ∀ c : Source, c.frames.length < 2 ^ 32 → c.palette.length ≤ 256 →
    ∃ v, parse c.paletteBytes c.blob c.blob.length = .ok v ∧
      v.width = c.width ∧ v.height = c.height ∧ v.fps = c.fps ∧ v.frameCount.toNat = c.frames.length ∧
      v.offsets.length = c.frames.length ∧
      (∀ k, k < c.frames.length →
        (v.offsets.getD k 0).toNat = ((c.lead ++ (c.frames.take k).flatten).map linePairs).sum % 2 ^ 32) ∧
      v.rle = (c.lead ++ c.frames.flatten).flatMap lineBytes ∧ v.palCount = c.palette.length ∧
      v.pal = c.palette ++ List.replicate (256 - c.palette.length) Color.black

/-! ### 40_context_load.md: LOAD -/

/-- R102, R107, R108, R109, R110: a LOAD whose checks pass completes in one step. It appends a context whose fields are the
blob's and the palette's bytes as R70 and R74 lay them out, writes the RES registers and ends with DONE 1 and ERR 0; nothing
else changes. RES_HANDLE is the length of the store before, modulo 2^64: the model's reading (notes/assumptions/15.md). The
working registers, to which R41 gives no value here, keep what they held: the model's choice (notes/assumptions/26.md). -/
def Obligations.LoadCompletes : Prop :=
  ∀ s : State, loadReads s → 16 ≤ s.latched.blobLen.toNat → loadHeader s ≤ s.latched.blobLen.toNat →
    asS64 s.latched.declaredSize = s.latched.blobLen.toNat → s.latched.palLen.toNat / 3 ≤ 256 → loadFits s →
    ∃ c : Context,
      exec .load s = .next { s with
        ctxs := s.ctxs ++ [c],
        res := { handle := BitVec.ofNat 64 s.ctxs.length, width := c.width.setWidth 64,
                 height := c.height.setWidth 64, fps := c.fps.setWidth 64,
                 frameCount := c.frameCount.setWidth 64, paletteSize := BitVec.ofNat 64 c.palCount },
        eState := .idle, done := true, err := 0 } ∧
      c.width.toNat = memU32 s.mem s.latched.blobBase.toNat ∧
      c.height.toNat = memU32 s.mem (s.latched.blobBase.toNat + 4) ∧
      c.fps.toNat = memU32 s.mem (s.latched.blobBase.toNat + 8) ∧
      c.frameCount.toNat = loadFrameCount s ∧
      c.offsets.length = loadFrameCount s ∧
      (∀ k, k < loadFrameCount s →
        (c.offsets.getD k 0).toNat = memU32 s.mem (s.latched.blobBase.toNat + 16 + 4 * k)) ∧
      c.rle.length = s.latched.blobLen.toNat - loadHeader s ∧
      (∀ k, k < s.latched.blobLen.toNat - loadHeader s →
        c.rle.getD k 0 = Memory.get s.mem (s.latched.blobBase.toNat + loadHeader s + k)) ∧
      c.palCount = s.latched.palLen.toNat / 3 ∧ c.pal.length = 256 ∧
      (∀ k, k < c.palCount →
        c.pal.getD k Color.black =
          ⟨Memory.get s.mem (s.latched.palBase.toNat + 3 * k), Memory.get s.mem (s.latched.palBase.toNat + 3 * k + 1),
           Memory.get s.mem (s.latched.palBase.toNat + 3 * k + 2)⟩) ∧
      (∀ k, c.palCount ≤ k → k < 256 → c.pal.getD k Color.black = ⟨0, 0, 0⟩)

/-- R102 to R106, R213: LOAD's errors and the order of its checks. Each clause assumes the checks before it passed. -/
def Obligations.LoadErrorsInOrder : Prop :=
  ∀ s : State,
    (s.latched.palLen.toNat % 3 ≠ 0 → exec .load s = .next (errorEnd 10 s)) ∧
    (loadReads s →
      (s.latched.blobLen.toNat < 16 → exec .load s = .next (errorEnd 1 s)) ∧
      (16 ≤ s.latched.blobLen.toNat →
        (s.latched.blobLen.toNat < loadHeader s → exec .load s = .next (errorEnd 1 s)) ∧
        (loadHeader s ≤ s.latched.blobLen.toNat →
          (asS64 s.latched.declaredSize ≠ s.latched.blobLen.toNat → exec .load s = .next (errorEnd 2 s)) ∧
          (asS64 s.latched.declaredSize = s.latched.blobLen.toNat →
            (256 < s.latched.palLen.toNat / 3 → exec .load s = .next (errorEnd 3 s)) ∧
            (s.latched.palLen.toNat / 3 ≤ 256 → ¬ loadFits s → exec .load s = .next (errorEnd 11 s))))))

/-- R111, R101: a LOAD that ends in an error leaves CTX, VID_COUNT and every RES register as they were, and no LOAD writes
host memory. -/
def Obligations.LoadIsAllOrNothing : Prop :=
  ∀ s t : State, exec .load s = .next t →
    memSame s t ∧
      (t.err ≠ 0 → t.ctxs = s.ctxs ∧ t.res = s.res ∧ ∀ off, 0x60 ≤ off → off ≤ 0x90 → readReg t off = readReg s off)

/-! ### 41_registry.md: handles and CLEAR -/

/-- R109, R130, R131, R133: a successful LOAD issues the length of the store as its handle; the new context has that handle,
and every handle valid before names the same context as before. -/
def Obligations.LoadIssuesTheNextHandle : Prop :=
  ∀ s t : State, exec .load s = .next t → t.err = 0 →
    t.res.handle = BitVec.ofNat 64 s.ctxs.length ∧
      (∃ c, getContext s.ctxs s.ctxs.length = none ∧ getContext t.ctxs s.ctxs.length = some c) ∧
      (∀ (h : Int) (v : Context), getContext s.ctxs h = some v → getContext t.ctxs h = some v) ∧
      (∀ h : Int, h < 0 ∨ (s.ctxs.length : Int) < h → getContext t.ctxs h = none)

/-- R135: CLEAR empties the store and completes, in every state; nothing else changes. The working registers, to which R41 gives no value here, keep what
they held: the model's choice (notes/assumptions/26.md). -/
def Obligations.ClearEmptiesTheStore : Prop :=
  ∀ s : State,
    ∃ t, exec .clear s = .next t ∧ t = { s with ctxs := [], eState := .idle, done := true, err := 0 } ∧
      readReg t 0x90 = 0 ∧ (s.hazard = false → readReg t 0x08 = 2)

/-- R136: after a CLEAR every handle fails `get`, whatever its value, a DECODE of it ends with NotFound (code 9), and an empty
store stays empty until a LOAD succeeds. -/
def Obligations.ClearedHandlesAreNotFound : Prop :=
  (∀ s t : State, exec .clear s = .next t → t.ctxs = []) ∧
  (∀ s t : State, step s = .next t → s.ctxs = [] → t.ctxs = [] ∨ (s.eOp = 1 ∧ t.err = 0 ∧ t.ctxs.length = 1)) ∧
  (∀ (s : State) (h : Int), s.ctxs = [] → getContext s.ctxs h = none) ∧
  (∀ s : State, s.ctxs = [] → s.latched.destStride = 4 → exec .decode s = .next (errorEnd 9 s))

/-- R78 item 1: taking a reserved OP raises BadCommand (code 10) in the Engine's first step, with no other effect; the
reserved OP values are 0x0 and 0x4 to 0xF. The working registers, to which R41 gives no value here, keep what
they held: the model's choice (notes/assumptions/26.md). -/
def Obligations.ReservedCommandIsBadCommand : Prop :=
  (∀ (op : Op) (s : State), exec (.cmdReserved op) s = .next (errorEnd 10 s)) ∧
  (∀ s : State, s.eState = .pending → (s.eOp = 0 ∨ 4 ≤ s.eOp.toNat) → engineStep s = .next (errorEnd 10 s))

/-! ### 42_frame_decode.md: DECODE -/

/-- R151, R156: a DECODE whose four checks pass goes to DECODING in one step, with H, NPIX, I, CURSOR, STARTED and REM
written, where `o` is the frame's offset (R34: the table has frame_count entries); nothing else changes. That IDX, which R156 does
not write, keeps what it held is the model's choice (notes/assumptions/1.md). -/
def Obligations.DecodePrologueCompletes : Prop :=
  ∀ (s : State) (v : Context) (f : Nat) (o : U32), s.latched.destStride = 4 → 0 ≤ asS64 s.latched.handle →
    s.ctxs[(asS64 s.latched.handle).toNat]? = some v → asS64 s.latched.frame = f → f < v.frameCount.toNat →
    v.offsets[f]? = some o → v.width.toNat * v.height.toNat ≤ s.latched.destPixels.toNat →
    exec .decode s = .next { s with
      eState := .decoding,
      work := { ctxIndex := (asS64 s.latched.handle).toNat, npix := v.width.toNat * v.height.toNat, pixel := 0,
                cursor := o.toNat * 2, started := false, rem := 0, idx := s.work.idx } }

/-- R151 to R155: the prologue's errors and the order of its checks. Each clause assumes the checks before it passed; no
clause writes host memory. -/
def Obligations.DecodePrologueErrorsInOrder : Prop :=
  ∀ s : State,
    (s.latched.destStride ≠ 4 → exec .decode s = .next (errorEnd 10 s)) ∧
    (s.latched.destStride = 4 →
      ((asS64 s.latched.handle < 0 ∨ (s.ctxs.length : Int) ≤ asS64 s.latched.handle) →
        exec .decode s = .next (errorEnd 9 s)) ∧
      ∀ v : Context, 0 ≤ asS64 s.latched.handle → s.ctxs[(asS64 s.latched.handle).toNat]? = some v →
        ((asS64 s.latched.frame < 0 ∨ (v.frameCount.toNat : Int) ≤ asS64 s.latched.frame) →
          exec .decode s = .next (errorEnd 4 s)) ∧
        (0 ≤ asS64 s.latched.frame → asS64 s.latched.frame < v.frameCount.toNat →
          s.latched.destPixels.toNat < v.width.toNat * v.height.toNat → exec .decode s = .next (errorEnd 5 s)))

/-- The frame of the commands (R27, R36, R101, R111, R135, R150, R214, R215): what LOAD, DECODE, CLEAR and a reserved command
leave unchanged in their step. The working registers, to which R41 gives no value here, keep what
they held: the model's choice (notes/assumptions/26.md). -/
def Obligations.CommandFrame : Prop :=
  ∀ (i : Instr) (s t : State), (i = .load ∨ i = .decode ∨ i = .clear ∨ ∃ op, i = .cmdReserved op) →
    exec i s = .next t →
    hostSideSame s t ∧ memSame s t ∧ t.freeNext = s.freeNext ∧ t.errPixel = s.errPixel ∧ t.errCursor = s.errCursor ∧
      (i ≠ .load → t.res = s.res) ∧ (i ≠ .load → i ≠ .clear → t.ctxs = s.ctxs) ∧
      (t.eState ≠ .decoding → t.work = s.work) ∧
      (t.eState = .decoding → i = .decode → t.done = s.done ∧ t.err = s.err ∧ t.work.idx = s.work.idx)

/-- R158, R215: in DECODING with I = NPIX the Engine's step completes the command, whatever is left of the current run or of
the stream; nothing else changes. The working registers, to which U11 gives no value outside a DECODE, keep what
they held: the model's choice (notes/assumptions/26.md). -/
def Obligations.CompletionStep : Prop :=
  ∀ s : State, s.eState = .decoding → s.work.pixel = s.work.npix →
    engineStep s = .next { s with eState := .idle, done := true, err := 0 } ∧
      ∀ (cs : List Context) (x y : Byte), engineStep { s with ctxs := cs, work := { s.work with rem := x, idx := y } } =
        .next { s with ctxs := cs, work := { s.work with rem := x, idx := y }, eState := .idle, done := true, err := 0 }

/-- R160: a DECODE whose prologue passes and whose host writes are all admitted ends, within N + 2 Engine steps, as the
function decodeFrame says. On success the N pixels stand at the destination and ERR is 0; on a pixel-loop error ERR, ERR_PIXEL and
ERR_CURSOR say where it was, and the destination is as R162 says: under the policy `prefix` the pixels before it stand there and
no other byte changes, under `any` no byte outside the N-pixel window changes. No context and no RES register changes. -/
def Obligations.DecodeRunsAsDecodeFrame : Prop :=
  ∀ (s : State) (v : Context) (f : Nat), decodeReady s v f → Memory.wf s.mem = true →
    ∃ t, engineRun (v.width.toNat * v.height.toNat + 2) s = .next t ∧ t.eState = .idle ∧ t.done = true ∧
      t.ctxs = s.ctxs ∧ t.res = s.res ∧ hostSideSame s t ∧
      match decodeFrame v f with
      | .ok out =>
        t.err = 0 ∧ out.length = v.width.toNat * v.height.toNat ∧ t.errPixel = s.errPixel ∧
          t.errCursor = s.errCursor ∧ pixelsWritten out s t
      | .err e i c out =>
        t.err = e.code ∧ t.errPixel = BitVec.ofNat 64 i ∧ t.errCursor = BitVec.ofNat 64 c ∧ out.length = i ∧
          i < v.width.toNat * v.height.toNat ∧ (s.platform.errorDest = .writtenPrefix → pixelsWritten out s t) ∧
          memSameOutside s.latched.destBase.toNat (4 * (v.width.toNat * v.height.toNat)) s t

/-- R159: a DECODE whose prologue passes and whose host writes are all admitted ends within N + 2 Engine steps, under
either ERROR_DEST_POLICY. -/
def Obligations.DecodeEndsWithinPixelsPlusTwo : Prop :=
  ∀ (s : State) (v : Context) (f : Nat), decodeReady s v f →
    ∃ k t, k ≤ v.width.toNat * v.height.toNat + 2 ∧ engineRun k s = .next t ∧ ended t

/-- R161: two DECODEs of the same handle and frame, with the same store, end with the same ERR, ERR_PIXEL and ERR_CURSOR and,
when they succeed, write the same bytes, wherever their destinations are and whatever host memory held. When they fail under the
policy `prefix` (R162), they write the same bytes up to the failing pixel. -/
def Obligations.DecodeIsRepeatable : Prop :=
  ∀ (s1 s2 : State) (v : Context) (f : Nat), decodeReady s1 v f → decodeReady s2 v f →
    s1.ctxs = s2.ctxs → s1.latched.handle = s2.latched.handle →
    Memory.wf s1.mem = true → Memory.wf s2.mem = true →
    s1.errPixel = s2.errPixel → s1.errCursor = s2.errCursor →
    ∃ t1 t2, engineRun (v.width.toNat * v.height.toNat + 2) s1 = .next t1 ∧
      engineRun (v.width.toNat * v.height.toNat + 2) s2 = .next t2 ∧ ended t1 ∧ ended t2 ∧
      t1.err = t2.err ∧ t1.errPixel = t2.errPixel ∧ t1.errCursor = t2.errCursor ∧
      (t1.err = 0 → ∀ i k, i < v.width.toNat * v.height.toNat → k < 4 →
        Memory.get t1.mem (pixelAddr s1.latched i + k) = Memory.get t2.mem (pixelAddr s2.latched i + k)) ∧
      (t1.err ≠ 0 → s1.platform.errorDest = .writtenPrefix → s2.platform.errorDest = .writtenPrefix →
        ∀ i k, i < t1.errPixel.toNat → k < 4 →
          Memory.get t1.mem (pixelAddr s1.latched i + k) = Memory.get t2.mem (pixelAddr s2.latched i + k))

/-- R163: no Engine step of a DECODE writes a host byte outside the N-pixel window, under either ERROR_DEST_POLICY and even when
L_DEST_PIXELS exceeds N: its prologue writes none at all, its pixel steps and its completion none outside. -/
def Obligations.DecodeWritesOnlyItsDestination : Prop :=
  ∀ s t : State, engineStep s = .next t →
    (s.eState = .decoding → memSameOutside s.latched.destBase.toNat (4 * s.work.npix) s t) ∧
      (s.eState = .pending → s.eOp = 2 → memSame s t)

/-- R162: ERROR_DEST_POLICY decides nothing but the destination bytes after a pixel-loop error. An Engine step under `any`
and under `prefix` agree on everything but host memory and the free values used; they agree on host memory too unless the step
ends a DECODE with a pixel-loop error. -/
def Obligations.ErrorPolicyDecidesOnlyTheDestination : Prop :=
  ∀ (s : State) (q : Config.ErrorDestPolicy),
    mapNext (fun t => { t with mem := [], freeNext := 0, platform := s.platform })
        (engineStep { s with platform := { s.platform with errorDest := q } }) =
      mapNext (fun t => { t with mem := [], freeNext := 0, platform := s.platform }) (engineStep s) ∧
    ∀ t u, engineStep { s with platform := { s.platform with errorDest := q } } = .next t → engineStep s = .next u →
      (t.err ≠ 6 → t.err ≠ 7 → t.err ≠ 8 → t.mem = u.mem) ∧ (s.eState = .pending → t.mem = s.mem)

/-! ### 43_run_expansion.md: RUN -/

/-- R181, R182, R188 to R191: with REM = 0 a RUN L, P whose index is populated and whose write is admitted fetches the pair
and writes its first pixel: the cursor moves by 2 unless this is the frame's first fetch, REM becomes L - 1, IDX becomes P,
I counts up, and the four bytes r, g, b, 0xFF of palette entry P stand at DEST + 4 * I. Nothing else changes. -/
def Obligations.RunFetchesAndWritesPixel : Prop :=
  ∀ (s : State) (v : Context) (l p : Byte) (k : Color), s.ctxs[s.work.ctxIndex]? = some v → s.work.rem = 0 → l ≠ 0 →
    p.toNat < v.palCount → v.pal[p.toNat]? = some k → hmemAdmit s.platform (pixelAddr s.latched s.work.pixel) 4 .write = true →
    Memory.wf s.mem = true →
    ∃ t, exec (.run l p) s = .next t ∧
      t = { s with
        mem := t.mem,
        work := { s.work with cursor := if s.work.started then s.work.cursor + 2 else s.work.cursor, started := true,
                              rem := BitVec.ofNat 8 (l.toNat - 1), idx := p, pixel := s.work.pixel + 1 } } ∧
      Memory.get t.mem (pixelAddr s.latched s.work.pixel) = k.r ∧
      Memory.get t.mem (pixelAddr s.latched s.work.pixel + 1) = k.g ∧
      Memory.get t.mem (pixelAddr s.latched s.work.pixel + 2) = k.b ∧
      Memory.get t.mem (pixelAddr s.latched s.work.pixel + 3) = 0xFF ∧
      memSameOutside (pixelAddr s.latched s.work.pixel) 4 s t

/-- R181, R188 to R191: with REM not 0 the pixel step writes the next pixel of the current run and counts it; the stream is
not read, so the pair given to it does not matter (notes/assumptions/9.md). -/
def Obligations.RunContinuesTheCurrentRun : Prop :=
  ∀ (s : State) (v : Context) (l p : Byte) (c : Color), s.ctxs[s.work.ctxIndex]? = some v → s.work.rem ≠ 0 →
    s.work.idx.toNat < v.palCount → v.pal[s.work.idx.toNat]? = some c → hmemAdmit s.platform (pixelAddr s.latched s.work.pixel) 4 .write = true →
    Memory.wf s.mem = true →
    ∃ t, exec (.run l p) s = .next t ∧
      t = { s with mem := t.mem,
                   work := { s.work with rem := BitVec.ofNat 8 (s.work.rem.toNat - 1), pixel := s.work.pixel + 1 } } ∧
      (∀ k, k < 4 → Memory.get t.mem (pixelAddr s.latched s.work.pixel + k) =
        [c.r, c.g, c.b, 0xFF].getD k 0) ∧
      memSameOutside (pixelAddr s.latched s.work.pixel) 4 s t

/-- R186, R187: a fetched pair of length 0 ends the command with ZeroLengthRun (code 8), whatever its palette index;
ERR_PIXEL is I and ERR_CURSOR the address of the pair. Nothing else changes, but the destination under the policy `any`: CURSOR and
STARTED keep their old values, the model's reading of R212 (notes/assumptions/8.md). The Engine takes RUN_ZERO only on a fetch, with
REM = 0; with REM not 0 nothing is said here. -/
def Obligations.ZeroLengthRunEndsTheCommand : Prop :=
  ∀ (s : State) (v : Context) (p : Byte), s.ctxs[s.work.ctxIndex]? = some v → s.work.rem = 0 →
    endsInPixelError 8 (if s.work.started then s.work.cursor + 2 else s.work.cursor) s (exec (.runZero p) s)

/-- R188, R187: a run whose palette index is not populated ends the command with InvalidPaletteIndex (code 6) before its
pixel is written, on the fetch of the pair as on a later pixel; ERR_CURSOR is the address of the pair. Nothing else changes, but
the destination under the policy `any`: the working registers keep their old values, also on a fetch, the model's reading of R212
(notes/assumptions/8.md). That the pair given to a later pixel is ignored is the model's form (notes/assumptions/9.md). -/
def Obligations.InvalidPaletteIndexEndsTheCommand : Prop :=
  (∀ (s : State) (v : Context) (l p : Byte), s.ctxs[s.work.ctxIndex]? = some v → s.work.rem = 0 → l ≠ 0 →
    v.palCount ≤ p.toNat →
    endsInPixelError 6 (if s.work.started then s.work.cursor + 2 else s.work.cursor) s (exec (.run l p) s)) ∧
  (∀ (s : State) (v : Context) (l p : Byte), s.ctxs[s.work.ctxIndex]? = some v → s.work.rem ≠ 0 →
    v.palCount ≤ s.work.idx.toNat → endsInPixelError 6 s.work.cursor s (exec (.run l p) s))

/-- R184, R185: a fetch at a cursor whose pair does not lie wholly inside the stream ends the command with TruncatedRunStream
(code 7); ERR_CURSOR is that cursor. Nothing else changes, but the destination under the policy `any`: CURSOR and STARTED keep
their old values, the model's reading of R212 (notes/assumptions/8.md). -/
def Obligations.TruncatedStreamEndsTheCommand : Prop :=
  ∀ (s : State) (v : Context), s.eState = .decoding → s.work.pixel < s.work.npix →
    s.ctxs[s.work.ctxIndex]? = some v → s.work.rem = 0 →
    v.rle.length < (if s.work.started then s.work.cursor + 2 else s.work.cursor) + 2 →
    endsInPixelError 7 (if s.work.started then s.work.cursor + 2 else s.work.cursor) s (engineStep s)

/-- The frame of RUN and RUN_ZERO (R163, R180, R190, R214): what a pixel step leaves unchanged. Where the command goes on, only
the four bytes of pixel I are stored; where it ends, nothing is stored under the policy `prefix`, and under `any` nothing
outside the N-pixel window, and the working registers keep their old values (notes/assumptions/8.md). -/
def Obligations.RunFrame : Prop :=
  ∀ (i : Instr) (s t : State), ((∃ l p, i = .run l p) ∨ ∃ p, i = .runZero p) → s.eState = .decoding →
    exec i s = .next t →
    hostSideSame s t ∧ t.ctxs = s.ctxs ∧ t.res = s.res ∧ t.work.ctxIndex = s.work.ctxIndex ∧
      t.work.npix = s.work.npix ∧
      (t.eState = .decoding → t.done = s.done ∧ t.err = s.err ∧ t.errPixel = s.errPixel ∧ t.errCursor = s.errCursor ∧
        t.freeNext = s.freeNext ∧ memSameOutside (pixelAddr s.latched s.work.pixel) 4 s t) ∧
      (t.eState ≠ .decoding → t.work = s.work ∧ memSameOutside s.latched.destBase.toNat (4 * s.work.npix) s t ∧
        (s.platform.errorDest = .writtenPrefix → memSame s t ∧ t.freeNext = s.freeNext))

/-! ### 60_exceptions.md: errors -/

/-- R211, R212, R214: errors are precise. A step of the Engine that ends a running command with an error leaves exactly the
state before the step with R214 applied: E_STATE IDLE, DONE 1, ERR one of the codes 1 to 11, and ERR_PIXEL and ERR_CURSOR written
only by the pixel-loop errors 6, 7 and 8: ERR_PIXEL is I and ERR_CURSOR the cursor the step works at (R184, R186, R188). After a
pixel-loop error the destination is as the policy says (R162). The working registers are those before the step, also where R181
assigns one before it raises (notes/assumptions/8.md). -/
def Obligations.ErrorsArePrecise : Prop :=
  ∀ s t : State, Inv s → s.eState ≠ .idle → engineStep s = .next t → t.err ≠ 0 →
    1 ≤ t.err.toNat ∧ t.err.toNat ≤ 11 ∧
      ((t.err ≠ 6 ∧ t.err ≠ 7 ∧ t.err ≠ 8 ∧ s.eState = .pending ∧ t = errorEnd t.err s) ∨
       ((t.err = 6 ∨ t.err = 7 ∨ t.err = 8) ∧ s.eState = .decoding ∧
          endsInPixelError t.err (stepCursor s.work) s (.next t)))

/-! ### 70_reset_and_hazards.md: hazards -/

/-- R251: while a DECODE runs, a Host access to a byte of its declared destination sets HAZARD; while a LOAD runs, a Host
write to a palette or blob byte of it does. The access still happens: a write stores its bytes, a read returns host memory's byte
at every address that is not live. An access that touches no live byte leaves HAZARD as it was. Nothing else changes (R217: the hazard
does not end or change the running command), but the model's own record of what was read and count of free values
(notes/assumptions/18.md, notes/assumptions/7.md). Nothing is said of the bytes a read returns at live addresses. -/
def Obligations.LiveBufferHazard : Prop :=
  (∀ (s : State) (a : Addr) (n : Nat), a.toNat + n ≤ 2 ^ 64 → touchesWindow s.platform a.toNat n = false →
    ∃ t bs, hostAct (.memRead a n) s = .next t ∧ t.lastRead = .bytes bs ∧ bs.length = n ∧
      t = { s with lastRead := t.lastRead, hazard := t.hazard, freeNext := t.freeNext } ∧
      (t.hazard = true ↔ s.hazard = true ∨
        s.eState ≠ .idle ∧ s.eOp = 2 ∧ ∃ x, a.toNat ≤ x ∧ x < a.toNat + n ∧ s.latched.destBase.toNat ≤ x ∧
          x < s.latched.destBase.toNat + 4 * s.latched.destPixels.toNat) ∧
      ∀ k, k < n → ¬(s.eState ≠ .idle ∧ s.eOp = 2 ∧ s.latched.destBase.toNat ≤ a.toNat + k ∧
          a.toNat + k < s.latched.destBase.toNat + 4 * s.latched.destPixels.toNat) →
        bs.getD k 0 = Memory.get s.mem (a.toNat + k)) ∧
  (∀ (s : State) (a : Addr) (bs : List Byte), a.toNat + bs.length ≤ 2 ^ 64 →
    touchesWindow s.platform a.toNat bs.length = false → Memory.wf s.mem = true →
    ∃ t, hostAct (.memWrite a bs) s = .next t ∧ t = { s with mem := t.mem, hazard := t.hazard } ∧
      (∀ k, k < bs.length → Memory.get t.mem (a.toNat + k) = bs.getD k 0) ∧ memSameOutside a.toNat bs.length s t ∧
      (t.hazard = true ↔ s.hazard = true ∨
        s.eState ≠ .idle ∧ ∃ x, a.toNat ≤ x ∧ x < a.toNat + bs.length ∧
          (s.eOp = 2 ∧ s.latched.destBase.toNat ≤ x ∧
              x < s.latched.destBase.toNat + 4 * s.latched.destPixels.toNat ∨
           s.eOp = 1 ∧ s.latched.palBase.toNat ≤ x ∧ x < s.latched.palBase.toNat + s.latched.palLen.toNat ∨
           s.eOp = 1 ∧ s.latched.blobBase.toNat ≤ x ∧ x < s.latched.blobBase.toNat + s.latched.blobLen.toNat)))

/-- R81, R257: WAIT reads STATUS until bit 1 (DONE) reads 1: it records the word it read, stays the Host's next action while
DONE is 0 and is done with when DONE is 1; it changes nothing else. -/
def Obligations.WaitPollsDone : Prop :=
  ∀ (s : State) (rest : List HostAction), s.hostProgram = .wait :: rest →
    hostStep s = .next { s with lastRead := .word (readReg s 0x08),
                                hostProgram := if s.done then rest else .wait :: rest }

/-! ### The machine -/

/-- R24, R25, R77: a step runs the decoded command. A Host write of the word `w` to CMD of an idle block, then the Engine's
turn, runs the instruction `w` decodes to; and whenever a command is pending, the Engine's turn runs the instruction E_OP names.
A turn whose host request is refused passes (notes/assumptions/6.md). -/
def Obligations.StepRunsTheDecodedCommand : Prop :=
  (∀ (s t : State) (w : Word) (i : Instr) (rest : List Agent), s.eState = .idle → decode (.command w) = .ok i →
    hostAct (.regWrite 0 64 w) s = .next t →
    step { t with turns := .engine :: rest } =
      turnAnswer { t with turns := rest } (exec i { t with turns := rest })) ∧
  (∀ (s : State) (rest : List Agent), s.turns = .engine :: rest → s.eState = .pending →
    step s = turnAnswer { s with turns := rest } (exec (decodeOp s.eOp) { s with turns := rest }))

/-- R157, R181, R182: a step runs the decoded run pair. While pixels remain and REM = 0 the Engine's turn runs the
instruction the two bytes at the next cursor decode to; with REM not 0 it runs what is left of the current run, REM pixels of
index IDX. A turn whose host request is refused passes (notes/assumptions/6.md). -/
def Obligations.StepRunsTheDecodedPair : Prop :=
  ∀ (s : State) (rest : List Agent) (v : Context), s.turns = .engine :: rest → s.eState = .decoding →
    s.work.pixel < s.work.npix → s.ctxs[s.work.ctxIndex]? = some v →
    (∀ (l p : Byte) (i : Instr), s.work.rem = 0 →
      v.rle[if s.work.started then s.work.cursor + 2 else s.work.cursor]? = some l →
      v.rle[(if s.work.started then s.work.cursor + 2 else s.work.cursor) + 1]? = some p →
      decode (.stream [l, p]) = .ok i →
      step s = turnAnswer { s with turns := rest } (exec i { s with turns := rest })) ∧
    (s.work.rem ≠ 0 →
      step s = turnAnswer { s with turns := rest }
        (exec (.run s.work.rem s.work.idx) { s with turns := rest }))

/-- R12, R60, R256: a step of the machine is one step of one agent. On the Host's turn it is the Host's next action, and nothing when
there is none left; on the Engine's turn it is the Engine's step, and nothing when that is refused. With no turn named the Engine
moves when it is busy and its step is not refused, and else the Host. That the turns are fields of the state, and who moves when none
is named, are the model's choices (notes/assumptions/5.md, notes/assumptions/6.md). -/
def Obligations.StepTakesTheTurnOfOneAgent : Prop :=
  (∀ (s : State) (r : List Agent) (a : HostAction) (p : List HostAction), s.turns = .host :: r → s.hostProgram = a :: p →
    step s = hostAct a { s with turns := r, hostProgram := p }) ∧
  (∀ (s : State) (r : List Agent), s.turns = .host :: r → s.hostProgram = [] → step s = .next { s with turns := r }) ∧
  (∀ (s : State) (r : List Agent), s.turns = .engine :: r →
    step s = turnAnswer { s with turns := r } (engineStep { s with turns := r })) ∧
  (∀ s : State, s.turns = [] → s.eState ≠ .idle → engineStep s ≠ .fault .hostMemoryRefused → step s = engineStep s) ∧
  (∀ s : State, s.turns = [] → (s.eState = .idle ∨ engineStep s = .fault .hostMemoryRefused) →
    (∀ (a : HostAction) (p : List HostAction), s.hostProgram = a :: p →
      step s = hostAct a { s with hostProgram := p }) ∧
    (s.hostProgram = [] → step s = .next s))

/-- The invariant of the machine holds at reset. -/
def Obligations.InvariantHoldsAtReset : Prop := Inv State.reset

/-- Every step of the machine, of either agent, keeps the invariant: canonical host memory, contexts as R34 and R35 say,
STATUS and the error registers as R26 and R29 say, and a DECODING engine with its working registers as R31, R32 and R191 say. -/
def Obligations.EveryStepKeepsTheInvariant : Prop :=
  ∀ s t : State, Inv s → step s = .next t → Inv t

/-- From a state with the invariant no step stops in a state that no rule covers: H names a context and I does not exceed NPIX
whenever the Engine moves (R31, R41), and every instruction fetched has a meaning. The only stops left are the Host's, when it moves
and its next action is an access past host memory (R50; a stop the model chose, notes/assumptions/12.md) or an access to the register
window that is refused (R55). -/
def Obligations.OnlyHostAccessesStopTheMachine : Prop :=
  ∀ s : State, Inv s →
    (∃ t, step s = .next t) ∨
    (step s = .fault .hostAddress ∧ hostMoves s ∧ ∃ a rest, s.hostProgram = a :: rest ∧ pastMemory s a) ∨
    (step s = .refused .registerAccess ∧ hostMoves s ∧ ∃ a rest, s.hostProgram = a :: rest ∧ refusedAccess s a)

/-- No step changes the platform (R8, R53, R58: parameters of the model). That these parameters stand in State, and that the
requests host memory refuses are among them and so stay the same for a whole run, where R253 speaks only of keeping bytes admitted
"until the command ends", are the model's choices (notes/assumptions/3.md, notes/assumptions/4.md). -/
def Obligations.PlatformIsFixed : Prop :=
  ∀ s t : State, step s = .next t → t.platform = s.platform
end

