-- ==== Sys2Proof/Laws/Memory.lean ====
section
/-! SUPPORT. The laws of host memory: a read after a write, the frame of a write, and that every write keeps the canonical
form. -/

namespace Sys2Proof.Machine

@[simp] theorem Memory.get_nil (x : Nat) : Memory.get [] x = Memory.unlisted := rfl

theorem Memory.wf_nil : Memory.wf [] = true := rfl

@[simp] theorem Memory.wfFrom_cons (lo a : Nat) (b : Byte) (m : Memory) :
    Memory.wfFrom lo ((a, b) :: m) = true ↔
      lo ≤ a ∧ a < Config.addrSpace ∧ b ≠ Memory.unlisted ∧ Memory.wfFrom (a + 1) m = true := by
  simp [Memory.wfFrom, and_assoc]

/-- The canonical form from `lo` on is one from any lower address on. -/
theorem Memory.wfFrom_mono {lo lo' : Nat} {m : Memory} (h : Memory.wfFrom lo m = true) (hl : lo' ≤ lo) :
    Memory.wfFrom lo' m = true := by
  cases m with
  | nil => rfl
  | cons c m =>
    obtain ⟨h1, h2⟩ := (Memory.wfFrom_cons ..).1 h
    exact (Memory.wfFrom_cons ..).2 ⟨by omega, h2⟩

/-- An address below every listed one reads as unlisted. -/
theorem Memory.get_below {lo x : Nat} {m : Memory} (h : Memory.wfFrom lo m = true) (hx : x < lo) :
    Memory.get m x = Memory.unlisted := by
  induction m generalizing lo with
  | nil => rfl
  | cons c m ih =>
    obtain ⟨h1, -, -, h4⟩ := (Memory.wfFrom_cons ..).1 h
    have : c.1 ≠ x := by omega
    simpa [Memory.get, this] using ih h4 (by omega)

/-- A write of one byte leaves every other address alone. -/
theorem Memory.get_put_other {m : Memory} {x y : Nat} {v : Byte} (h : y ≠ x) :
    Memory.get (Memory.put m x v) y = Memory.get m y := by
  induction m with
  | nil => simp only [Memory.put]; split <;> simp [Memory.get, h.symm]
  | cons c m ih =>
    simp only [Memory.put]
    split
    · split <;> simp [Memory.get, h.symm]
    · split
      · rename_i hx
        subst hx
        split <;> simp [Memory.get, h.symm]
      · simp only [Memory.get, ih]

/-- A read after a write of one byte. -/
theorem Memory.get_put_same {lo : Nat} {m : Memory} {x : Nat} {v : Byte} (h : Memory.wfFrom lo m = true) :
    Memory.get (Memory.put m x v) x = v := by
  induction m generalizing lo with
  | nil =>
    simp only [Memory.put]
    split
    · rename_i hv; simp [hv]
    · simp [Memory.get]
  | cons c m ih =>
    obtain ⟨h1, h2, h3, h4⟩ := (Memory.wfFrom_cons ..).1 h
    simp only [Memory.put]
    split
    · split
      · rename_i hx hv
        have : c.1 ≠ x := by omega
        simpa [Memory.get, this, hv] using Memory.get_below h4 (by omega)
      · simp [Memory.get]
    · split
      · rename_i hx
        subst hx
        split
        · rename_i hv
          simpa [hv] using Memory.get_below h4 (by omega)
        · simp [Memory.get]
      · rename_i hx
        have : c.1 ≠ x := fun e => hx e.symm
        simpa [Memory.get, this] using ih h4

/-- A write of one byte keeps the canonical form. -/
theorem Memory.wfFrom_put {lo : Nat} {m : Memory} {x : Nat} {v : Byte} (h : Memory.wfFrom lo m = true) (hl : lo ≤ x)
    (hx : x < Config.addrSpace) : Memory.wfFrom lo (Memory.put m x v) = true := by
  induction m generalizing lo with
  | nil =>
    simp only [Memory.put]
    split
    · rfl
    · rename_i hv
      exact (Memory.wfFrom_cons ..).2 ⟨hl, hx, hv, rfl⟩
  | cons c m ih =>
    obtain ⟨h1, h2, h3, h4⟩ := (Memory.wfFrom_cons ..).1 h
    simp only [Memory.put]
    split
    · split
      · exact h
      · rename_i hlt hv
        exact (Memory.wfFrom_cons ..).2 ⟨hl, hx, hv, (Memory.wfFrom_cons ..).2 ⟨by omega, h2, h3, h4⟩⟩
    · split
      · split
        · exact Memory.wfFrom_mono h4 (by omega)
        · rename_i hv
          exact (Memory.wfFrom_cons ..).2 ⟨hl, hx, hv, by simp_all⟩
      · rename_i hlt hne
        exact (Memory.wfFrom_cons ..).2 ⟨h1, h2, h3, ih h4 (by omega)⟩

/-- A write of a byte sequence keeps the canonical form. -/
theorem Memory.wf_write {m : Memory} {a : Nat} {bs : List Byte} (h : Memory.wf m = true)
    (ha : a + bs.length ≤ Config.addrSpace) : Memory.wf (Memory.write m a bs) = true := by
  induction bs generalizing m a with
  | nil => exact h
  | cons b bs ih =>
    rw [List.length_cons] at ha
    exact ih (Memory.wfFrom_put h (Nat.zero_le _) (by omega)) (by omega)

/-- A write of a byte sequence leaves every address outside it alone. -/
theorem Memory.get_write_other {m : Memory} {a x : Nat} {bs : List Byte} (h : x < a ∨ a + bs.length ≤ x) :
    Memory.get (Memory.write m a bs) x = Memory.get m x := by
  induction bs generalizing m a with
  | nil => rfl
  | cons b bs ih =>
    rw [List.length_cons] at h
    simp only [Memory.write]
    rw [ih (by omega), Memory.get_put_other (by omega)]

/-- A read after a write of a byte sequence. -/
theorem Memory.get_write_same {m : Memory} {a k : Nat} {bs : List Byte} (h : Memory.wf m = true) (hk : k < bs.length)
    (ha : a + bs.length ≤ Config.addrSpace) : Memory.get (Memory.write m a bs) (a + k) = bs.getD k 0#8 := by
  induction bs generalizing m a k with
  | nil => simp at hk
  | cons b bs ih =>
    rw [List.length_cons] at hk ha
    simp only [Memory.write]
    cases k with
    | zero =>
      rw [Memory.get_write_other (by omega)]
      simpa using Memory.get_put_same (x := a) (v := b) h
    | succ k =>
      have := ih (m := Memory.put m a b) (a := a + 1) (k := k)
        (Memory.wfFrom_put h (Nat.zero_le _) (by omega)) (by omega) (by omega)
      simpa [Nat.add_assoc, Nat.add_comm 1 k] using this

@[simp] theorem Memory.read_length (m : Memory) (a n : Nat) : (Memory.read m a n).length = n := by
  simp [Memory.read]

/-- Byte `k` of a read. -/
theorem Memory.read_getD {m : Memory} {a n k : Nat} (h : k < n) :
    (Memory.read m a n).getD k 0#8 = Memory.get m (a + k) := by
  simp [Memory.read, List.getD_eq_getElem?_getD, h]

@[simp] theorem freeBytes_length (k n : Nat) : (freeBytes k n).length = n := by simp [freeBytes]

/-- A region refuses the requests that share a byte with it, and no others (notes/assumptions/4.md). -/
theorem hmemRuleRefuses_region {base size a n : Nat} {k kind : Config.AccessKind} :
    hmemRuleRefuses (.region base size k) a n kind = true ↔
      k = kind ∧ ∃ x, a ≤ x ∧ x < a + n ∧ base ≤ x ∧ x < base + size := by
  simp only [hmemRuleRefuses, Bool.and_eq_true, decide_eq_true_eq]
  refine and_congr_right fun _ => ⟨fun h => ⟨max base a, by omega, by omega, by omega, by omega⟩, ?_⟩
  rintro ⟨x, h⟩
  omega

/-- An admitted request lies inside host memory (R53). -/
theorem hmemAdmit_bound {p : Config.Platform} {a n : Nat} {kind : Config.AccessKind}
    (h : hmemAdmit p a n kind = true) : a + n ≤ Config.addrSpace := by
  simp only [hmemAdmit, Bool.and_eq_true, decide_eq_true_eq] at h
  exact h.1

/-- `MemRead` (R53): the bytes when admitted, nothing otherwise. -/
theorem hmemRead_eq_some {s : State} {a n : Nat} {bs : List Byte} :
    hmemRead s a n = some bs ↔ hmemAdmit s.platform a n .read = true ∧ bs = Memory.read s.mem a n := by
  by_cases h : hmemAdmit s.platform a n .read = true
  · simp only [hmemRead, h, if_true, Option.some.injEq, true_and]
    exact eq_comm
  · simp [hmemRead, h]

/-- `MemWrite` (R53): the memory written when admitted, nothing otherwise. -/
theorem hmemWrite_eq_some {s : State} {a : Nat} {bs : List Byte} {m : Memory} :
    hmemWrite s a bs = some m ↔
      hmemAdmit s.platform a bs.length .write = true ∧ m = Memory.write s.mem a bs := by
  by_cases h : hmemAdmit s.platform a bs.length .write = true
  · simp only [hmemWrite, h, if_true, Option.some.injEq, true_and]
    exact eq_comm
  · simp [hmemWrite, h]

/-- An admitted write keeps the canonical form. -/
theorem hmemWrite_wf {s : State} {a : Nat} {bs : List Byte} {m : Memory} (h : Memory.wf s.mem = true)
    (hw : hmemWrite s a bs = some m) : Memory.wf m = true := by
  obtain ⟨ha, rfl⟩ := hmemWrite_eq_some.1 hw
  exact Memory.wf_write h (hmemAdmit_bound ha)

/-- Spoiling the destination (R162) keeps the canonical form. -/
theorem spoilDest_wf {s : State} (h : Memory.wf s.mem = true) : Memory.wf (spoilDest s).mem = true := by
  unfold spoilDest
  split
  · exact h
  · refine Memory.wf_write h ?_
    have := s.latched.destBase.isLt
    rw [freeBytes_length, destBytes, Config.addrSpace]
    omega

/-- Spoiling the destination (R162) leaves every byte outside the N-pixel window alone. -/
theorem spoilDest_get_other {s : State} {x : Nat}
    (h : x < s.latched.destBase.toNat ∨ s.latched.destBase.toNat + Config.channels * s.work.npix ≤ x) :
    Memory.get (spoilDest s).mem x = Memory.get s.mem x := by
  unfold spoilDest
  split
  · rfl
  · refine Memory.get_write_other ?_
    rw [freeBytes_length, destBytes]
    omega

/-- The memory of the reset state is in canonical form. -/
theorem reset_mem_wf : Memory.wf State.reset.mem = true := rfl

end Sys2Proof.Machine
end

