-- ==== Sys2Proof/Laws/PerInstr.lean ====
section
/-! SUPPORT. Statements for all instructions, one lemma per constructor of Instr. -/

namespace Sys2Proof.Laws.RoundTrip

/-- Decoding the encoding of a well-formed instruction gives it back (30_encoding.md R75, R77, R78). -/
def Statement (i : Instr) : Prop := i.wf = true → decode (encode i) = .ok i

theorem load : Statement .load := fun _ => rfl

theorem decode : Statement .decode := fun _ => rfl

theorem clear : Statement .clear := fun _ => rfl

theorem cmdReserved (op : Op) : Statement (.cmdReserved op) := by
  revert op
  unfold Statement
  decide

theorem run (l p : Byte) : Statement (.run l p) := fun h => by
  have : l ≠ 0#8 := by simpa [Instr.wf] using h
  simp [encode, Sys2Proof.decode, decodePair, this]

theorem runZero (p : Byte) : Statement (.runZero p) := fun _ => rfl

end Sys2Proof.Laws.RoundTrip
end

