-- ==== Sys2Proof/Laws/State.lean ====
section
/-! SUPPORT. One lemma per field for each shared update of the state, so that no later proof unfolds a record update. -/

namespace Sys2Proof.Machine

/-! ### complete -/

@[simp] theorem complete_args (s : State) :
    (complete s).args = s.args := rfl
@[simp] theorem complete_res (s : State) :
    (complete s).res = s.res := rfl
@[simp] theorem complete_done (s : State) :
    (complete s).done = true := rfl
@[simp] theorem complete_err (s : State) :
    (complete s).err = 0 := rfl
@[simp] theorem complete_errPixel (s : State) :
    (complete s).errPixel = s.errPixel := rfl
@[simp] theorem complete_errCursor (s : State) :
    (complete s).errCursor = s.errCursor := rfl
@[simp] theorem complete_eState (s : State) :
    (complete s).eState = .idle := rfl
@[simp] theorem complete_eOp (s : State) :
    (complete s).eOp = s.eOp := rfl
@[simp] theorem complete_latched (s : State) :
    (complete s).latched = s.latched := rfl
@[simp] theorem complete_work (s : State) :
    (complete s).work = s.work := rfl
@[simp] theorem complete_ctxs (s : State) :
    (complete s).ctxs = s.ctxs := rfl
@[simp] theorem complete_hazard (s : State) :
    (complete s).hazard = s.hazard := rfl
@[simp] theorem complete_mem (s : State) :
    (complete s).mem = s.mem := rfl
@[simp] theorem complete_platform (s : State) :
    (complete s).platform = s.platform := rfl
@[simp] theorem complete_hostProgram (s : State) :
    (complete s).hostProgram = s.hostProgram := rfl
@[simp] theorem complete_turns (s : State) :
    (complete s).turns = s.turns := rfl
@[simp] theorem complete_lastRead (s : State) :
    (complete s).lastRead = s.lastRead := rfl
@[simp] theorem complete_freeNext (s : State) :
    (complete s).freeNext = s.freeNext := rfl

/-! ### latch -/

@[simp] theorem latch_args (w : Word) (s : State) :
    (latch w s).args = s.args := rfl
@[simp] theorem latch_res (w : Word) (s : State) :
    (latch w s).res = s.res := rfl
@[simp] theorem latch_done (w : Word) (s : State) :
    (latch w s).done = false := rfl
@[simp] theorem latch_err (w : Word) (s : State) :
    (latch w s).err = 0 := rfl
@[simp] theorem latch_errPixel (w : Word) (s : State) :
    (latch w s).errPixel = 0 := rfl
@[simp] theorem latch_errCursor (w : Word) (s : State) :
    (latch w s).errCursor = 0 := rfl
@[simp] theorem latch_eState (w : Word) (s : State) :
    (latch w s).eState = .pending := rfl
@[simp] theorem latch_eOp (w : Word) (s : State) :
    (latch w s).eOp = opField w := rfl
@[simp] theorem latch_latched (w : Word) (s : State) :
    (latch w s).latched = s.args := rfl
@[simp] theorem latch_work (w : Word) (s : State) :
    (latch w s).work = s.work := rfl
@[simp] theorem latch_ctxs (w : Word) (s : State) :
    (latch w s).ctxs = s.ctxs := rfl
@[simp] theorem latch_hazard (w : Word) (s : State) :
    (latch w s).hazard = s.hazard := rfl
@[simp] theorem latch_mem (w : Word) (s : State) :
    (latch w s).mem = s.mem := rfl
@[simp] theorem latch_platform (w : Word) (s : State) :
    (latch w s).platform = s.platform := rfl
@[simp] theorem latch_hostProgram (w : Word) (s : State) :
    (latch w s).hostProgram = s.hostProgram := rfl
@[simp] theorem latch_turns (w : Word) (s : State) :
    (latch w s).turns = s.turns := rfl
@[simp] theorem latch_lastRead (w : Word) (s : State) :
    (latch w s).lastRead = s.lastRead := rfl
@[simp] theorem latch_freeNext (w : Word) (s : State) :
    (latch w s).freeNext = s.freeNext := rfl

/-! ### raise -/

@[simp] theorem raise_args (e : CmdError) (info : Option (Nat × Nat)) (s : State) :
    (raise e info s).args = s.args := by
  cases info <;> rfl
@[simp] theorem raise_res (e : CmdError) (info : Option (Nat × Nat)) (s : State) :
    (raise e info s).res = s.res := by
  cases info <;> rfl
@[simp] theorem raise_done (e : CmdError) (info : Option (Nat × Nat)) (s : State) :
    (raise e info s).done = true := by
  cases info <;> rfl
@[simp] theorem raise_err (e : CmdError) (info : Option (Nat × Nat)) (s : State) :
    (raise e info s).err = e.code := by
  cases info <;> rfl
@[simp] theorem raise_eState (e : CmdError) (info : Option (Nat × Nat)) (s : State) :
    (raise e info s).eState = .idle := by
  cases info <;> rfl
@[simp] theorem raise_eOp (e : CmdError) (info : Option (Nat × Nat)) (s : State) :
    (raise e info s).eOp = s.eOp := by
  cases info <;> rfl
@[simp] theorem raise_latched (e : CmdError) (info : Option (Nat × Nat)) (s : State) :
    (raise e info s).latched = s.latched := by
  cases info <;> rfl
@[simp] theorem raise_work (e : CmdError) (info : Option (Nat × Nat)) (s : State) :
    (raise e info s).work = s.work := by
  cases info <;> rfl
@[simp] theorem raise_ctxs (e : CmdError) (info : Option (Nat × Nat)) (s : State) :
    (raise e info s).ctxs = s.ctxs := by
  cases info <;> rfl
@[simp] theorem raise_hazard (e : CmdError) (info : Option (Nat × Nat)) (s : State) :
    (raise e info s).hazard = s.hazard := by
  cases info <;> rfl
@[simp] theorem raise_mem (e : CmdError) (info : Option (Nat × Nat)) (s : State) :
    (raise e info s).mem = s.mem := by
  cases info <;> rfl
@[simp] theorem raise_platform (e : CmdError) (info : Option (Nat × Nat)) (s : State) :
    (raise e info s).platform = s.platform := by
  cases info <;> rfl
@[simp] theorem raise_hostProgram (e : CmdError) (info : Option (Nat × Nat)) (s : State) :
    (raise e info s).hostProgram = s.hostProgram := by
  cases info <;> rfl
@[simp] theorem raise_turns (e : CmdError) (info : Option (Nat × Nat)) (s : State) :
    (raise e info s).turns = s.turns := by
  cases info <;> rfl
@[simp] theorem raise_lastRead (e : CmdError) (info : Option (Nat × Nat)) (s : State) :
    (raise e info s).lastRead = s.lastRead := by
  cases info <;> rfl
@[simp] theorem raise_freeNext (e : CmdError) (info : Option (Nat × Nat)) (s : State) :
    (raise e info s).freeNext = s.freeNext := by
  cases info <;> rfl

@[simp] theorem raise_none_errPixel (e : CmdError) (s : State) : (raise e none s).errPixel = s.errPixel := rfl
@[simp] theorem raise_none_errCursor (e : CmdError) (s : State) : (raise e none s).errCursor = s.errCursor := rfl
@[simp] theorem raise_some_errPixel (e : CmdError) (i c : Nat) (s : State) :
    (raise e (some (i, c)) s).errPixel = BitVec.ofNat 64 i := rfl
@[simp] theorem raise_some_errCursor (e : CmdError) (i c : Nat) (s : State) :
    (raise e (some (i, c)) s).errCursor = BitVec.ofNat 64 c := rfl

/-! ### spoilDest -/

@[simp] theorem spoilDest_args (s : State) :
    (spoilDest s).args = s.args := by
  unfold spoilDest; split <;> rfl
@[simp] theorem spoilDest_res (s : State) :
    (spoilDest s).res = s.res := by
  unfold spoilDest; split <;> rfl
@[simp] theorem spoilDest_done (s : State) :
    (spoilDest s).done = s.done := by
  unfold spoilDest; split <;> rfl
@[simp] theorem spoilDest_err (s : State) :
    (spoilDest s).err = s.err := by
  unfold spoilDest; split <;> rfl
@[simp] theorem spoilDest_errPixel (s : State) :
    (spoilDest s).errPixel = s.errPixel := by
  unfold spoilDest; split <;> rfl
@[simp] theorem spoilDest_errCursor (s : State) :
    (spoilDest s).errCursor = s.errCursor := by
  unfold spoilDest; split <;> rfl
@[simp] theorem spoilDest_eState (s : State) :
    (spoilDest s).eState = s.eState := by
  unfold spoilDest; split <;> rfl
@[simp] theorem spoilDest_eOp (s : State) :
    (spoilDest s).eOp = s.eOp := by
  unfold spoilDest; split <;> rfl
@[simp] theorem spoilDest_latched (s : State) :
    (spoilDest s).latched = s.latched := by
  unfold spoilDest; split <;> rfl
@[simp] theorem spoilDest_work (s : State) :
    (spoilDest s).work = s.work := by
  unfold spoilDest; split <;> rfl
@[simp] theorem spoilDest_ctxs (s : State) :
    (spoilDest s).ctxs = s.ctxs := by
  unfold spoilDest; split <;> rfl
@[simp] theorem spoilDest_hazard (s : State) :
    (spoilDest s).hazard = s.hazard := by
  unfold spoilDest; split <;> rfl
@[simp] theorem spoilDest_platform (s : State) :
    (spoilDest s).platform = s.platform := by
  unfold spoilDest; split <;> rfl
@[simp] theorem spoilDest_hostProgram (s : State) :
    (spoilDest s).hostProgram = s.hostProgram := by
  unfold spoilDest; split <;> rfl
@[simp] theorem spoilDest_turns (s : State) :
    (spoilDest s).turns = s.turns := by
  unfold spoilDest; split <;> rfl
@[simp] theorem spoilDest_lastRead (s : State) :
    (spoilDest s).lastRead = s.lastRead := by
  unfold spoilDest; split <;> rfl

/-- Under the policy `prefix` a pixel-loop error leaves the destination alone (R162). -/
theorem spoilDest_prefix {s : State} (h : s.platform.errorDest = .writtenPrefix) : spoilDest s = s := by
  simp [spoilDest, h]

/-! ### raisePixel -/

@[simp] theorem raisePixel_args (e : CmdError) (c : Nat) (s : State) :
    (raisePixel e c s).args = s.args := by
  simp [raisePixel]
@[simp] theorem raisePixel_res (e : CmdError) (c : Nat) (s : State) :
    (raisePixel e c s).res = s.res := by
  simp [raisePixel]
@[simp] theorem raisePixel_done (e : CmdError) (c : Nat) (s : State) :
    (raisePixel e c s).done = true := by
  simp [raisePixel]
@[simp] theorem raisePixel_err (e : CmdError) (c : Nat) (s : State) :
    (raisePixel e c s).err = e.code := by
  simp [raisePixel]
@[simp] theorem raisePixel_errPixel (e : CmdError) (c : Nat) (s : State) :
    (raisePixel e c s).errPixel = BitVec.ofNat 64 s.work.pixel := by
  simp [raisePixel]
@[simp] theorem raisePixel_errCursor (e : CmdError) (c : Nat) (s : State) :
    (raisePixel e c s).errCursor = BitVec.ofNat 64 c := by
  simp [raisePixel]
@[simp] theorem raisePixel_eState (e : CmdError) (c : Nat) (s : State) :
    (raisePixel e c s).eState = .idle := by
  simp [raisePixel]
@[simp] theorem raisePixel_eOp (e : CmdError) (c : Nat) (s : State) :
    (raisePixel e c s).eOp = s.eOp := by
  simp [raisePixel]
@[simp] theorem raisePixel_latched (e : CmdError) (c : Nat) (s : State) :
    (raisePixel e c s).latched = s.latched := by
  simp [raisePixel]
@[simp] theorem raisePixel_work (e : CmdError) (c : Nat) (s : State) :
    (raisePixel e c s).work = s.work := by
  simp [raisePixel]
@[simp] theorem raisePixel_ctxs (e : CmdError) (c : Nat) (s : State) :
    (raisePixel e c s).ctxs = s.ctxs := by
  simp [raisePixel]
@[simp] theorem raisePixel_hazard (e : CmdError) (c : Nat) (s : State) :
    (raisePixel e c s).hazard = s.hazard := by
  simp [raisePixel]
@[simp] theorem raisePixel_mem (e : CmdError) (c : Nat) (s : State) :
    (raisePixel e c s).mem = (spoilDest s).mem := by
  simp [raisePixel]
@[simp] theorem raisePixel_platform (e : CmdError) (c : Nat) (s : State) :
    (raisePixel e c s).platform = s.platform := by
  simp [raisePixel]
@[simp] theorem raisePixel_hostProgram (e : CmdError) (c : Nat) (s : State) :
    (raisePixel e c s).hostProgram = s.hostProgram := by
  simp [raisePixel]
@[simp] theorem raisePixel_turns (e : CmdError) (c : Nat) (s : State) :
    (raisePixel e c s).turns = s.turns := by
  simp [raisePixel]
@[simp] theorem raisePixel_lastRead (e : CmdError) (c : Nat) (s : State) :
    (raisePixel e c s).lastRead = s.lastRead := by
  simp [raisePixel]
@[simp] theorem raisePixel_freeNext (e : CmdError) (c : Nat) (s : State) :
    (raisePixel e c s).freeNext = (spoilDest s).freeNext := by
  simp [raisePixel]

/-! ### addContext -/

@[simp] theorem addContext_args (c : Context) (s : State) :
    (addContext c s).args = s.args := rfl
@[simp] theorem addContext_res (c : Context) (s : State) :
    (addContext c s).res = s.res := rfl
@[simp] theorem addContext_done (c : Context) (s : State) :
    (addContext c s).done = s.done := rfl
@[simp] theorem addContext_err (c : Context) (s : State) :
    (addContext c s).err = s.err := rfl
@[simp] theorem addContext_errPixel (c : Context) (s : State) :
    (addContext c s).errPixel = s.errPixel := rfl
@[simp] theorem addContext_errCursor (c : Context) (s : State) :
    (addContext c s).errCursor = s.errCursor := rfl
@[simp] theorem addContext_eState (c : Context) (s : State) :
    (addContext c s).eState = s.eState := rfl
@[simp] theorem addContext_eOp (c : Context) (s : State) :
    (addContext c s).eOp = s.eOp := rfl
@[simp] theorem addContext_latched (c : Context) (s : State) :
    (addContext c s).latched = s.latched := rfl
@[simp] theorem addContext_work (c : Context) (s : State) :
    (addContext c s).work = s.work := rfl
@[simp] theorem addContext_ctxs (c : Context) (s : State) :
    (addContext c s).ctxs = s.ctxs ++ [c] := rfl
@[simp] theorem addContext_hazard (c : Context) (s : State) :
    (addContext c s).hazard = s.hazard := rfl
@[simp] theorem addContext_mem (c : Context) (s : State) :
    (addContext c s).mem = s.mem := rfl
@[simp] theorem addContext_platform (c : Context) (s : State) :
    (addContext c s).platform = s.platform := rfl
@[simp] theorem addContext_hostProgram (c : Context) (s : State) :
    (addContext c s).hostProgram = s.hostProgram := rfl
@[simp] theorem addContext_turns (c : Context) (s : State) :
    (addContext c s).turns = s.turns := rfl
@[simp] theorem addContext_lastRead (c : Context) (s : State) :
    (addContext c s).lastRead = s.lastRead := rfl
@[simp] theorem addContext_freeNext (c : Context) (s : State) :
    (addContext c s).freeNext = s.freeNext := rfl

/-! ### loadContext -/

@[simp] theorem loadContext_args (c : Context) (s : State) :
    (loadContext c s).args = s.args := rfl
@[simp] theorem loadContext_res (c : Context) (s : State) :
    (loadContext c s).res = loadResults s.ctxs.length c := rfl
@[simp] theorem loadContext_done (c : Context) (s : State) :
    (loadContext c s).done = true := rfl
@[simp] theorem loadContext_err (c : Context) (s : State) :
    (loadContext c s).err = 0 := rfl
@[simp] theorem loadContext_errPixel (c : Context) (s : State) :
    (loadContext c s).errPixel = s.errPixel := rfl
@[simp] theorem loadContext_errCursor (c : Context) (s : State) :
    (loadContext c s).errCursor = s.errCursor := rfl
@[simp] theorem loadContext_eState (c : Context) (s : State) :
    (loadContext c s).eState = .idle := rfl
@[simp] theorem loadContext_eOp (c : Context) (s : State) :
    (loadContext c s).eOp = s.eOp := rfl
@[simp] theorem loadContext_latched (c : Context) (s : State) :
    (loadContext c s).latched = s.latched := rfl
@[simp] theorem loadContext_work (c : Context) (s : State) :
    (loadContext c s).work = s.work := rfl
@[simp] theorem loadContext_ctxs (c : Context) (s : State) :
    (loadContext c s).ctxs = s.ctxs ++ [c] := rfl
@[simp] theorem loadContext_hazard (c : Context) (s : State) :
    (loadContext c s).hazard = s.hazard := rfl
@[simp] theorem loadContext_mem (c : Context) (s : State) :
    (loadContext c s).mem = s.mem := rfl
@[simp] theorem loadContext_platform (c : Context) (s : State) :
    (loadContext c s).platform = s.platform := rfl
@[simp] theorem loadContext_hostProgram (c : Context) (s : State) :
    (loadContext c s).hostProgram = s.hostProgram := rfl
@[simp] theorem loadContext_turns (c : Context) (s : State) :
    (loadContext c s).turns = s.turns := rfl
@[simp] theorem loadContext_lastRead (c : Context) (s : State) :
    (loadContext c s).lastRead = s.lastRead := rfl
@[simp] theorem loadContext_freeNext (c : Context) (s : State) :
    (loadContext c s).freeNext = s.freeNext := rfl

/-! ### blockReset -/

@[simp] theorem blockReset_args (s : State) :
    (blockReset s).args = Operands.zero := rfl
@[simp] theorem blockReset_res (s : State) :
    (blockReset s).res = Results.zero := rfl
@[simp] theorem blockReset_done (s : State) :
    (blockReset s).done = false := rfl
@[simp] theorem blockReset_err (s : State) :
    (blockReset s).err = 0 := rfl
@[simp] theorem blockReset_errPixel (s : State) :
    (blockReset s).errPixel = 0 := rfl
@[simp] theorem blockReset_errCursor (s : State) :
    (blockReset s).errCursor = 0 := rfl
@[simp] theorem blockReset_eState (s : State) :
    (blockReset s).eState = .idle := rfl
@[simp] theorem blockReset_eOp (s : State) :
    (blockReset s).eOp = 0 := rfl
@[simp] theorem blockReset_latched (s : State) :
    (blockReset s).latched = Operands.zero := rfl
@[simp] theorem blockReset_work (s : State) :
    (blockReset s).work = Work.zero := rfl
@[simp] theorem blockReset_ctxs (s : State) :
    (blockReset s).ctxs = [] := rfl
@[simp] theorem blockReset_hazard (s : State) :
    (blockReset s).hazard = false := rfl
@[simp] theorem blockReset_mem (s : State) :
    (blockReset s).mem = s.mem := rfl
@[simp] theorem blockReset_platform (s : State) :
    (blockReset s).platform = s.platform := rfl
@[simp] theorem blockReset_hostProgram (s : State) :
    (blockReset s).hostProgram = s.hostProgram := rfl
@[simp] theorem blockReset_turns (s : State) :
    (blockReset s).turns = s.turns := rfl
@[simp] theorem blockReset_lastRead (s : State) :
    (blockReset s).lastRead = s.lastRead := rfl
@[simp] theorem blockReset_freeNext (s : State) :
    (blockReset s).freeNext = s.freeNext := rfl

/-! ### accept -/

/-- An idle block accepts the command (R25). -/
theorem accept_idle {w : Word} {s : State} (h : s.eState = .idle) : accept w s = latch w s := if_pos h

/-- A busy block records the hazard and does nothing else (R25, R250). -/
theorem accept_busy {w : Word} {s : State} (h : s.eState ≠ .idle) : accept w s = { s with hazard := true } :=
  if_neg h

end Sys2Proof.Machine
end

