-- ==== Sys2Proof/Laws/Spec.lean ====
section
/-! SUPPORT. One lemma for each shared operation that says everything it can do; later proofs cite these and do not unfold
the operation. -/

namespace Sys2Proof.Machine

/-- A frame-free reading of an outcome: what it is when it is a next state. -/
theorem next_inj {s t : State} : (Host.Outcome.next s : Host.Outcome State Fault Refusal) = .next t ↔ s = t := by
  constructor
  · intro h; injection h
  · intro h; rw [h]

/-- The context a successful parse makes (R102, R107, R108). -/
def parsedContext (pal blob : List Byte) : Context where
  width := field blob 0
  height := field blob 4
  fps := field blob 8
  frameCount := field blob 12
  offsets := offsetTable blob (field blob 12).toNat
  rle := blob.drop (headerLen (field blob 12).toNat)
  pal := buildPalette pal (pal.length / 3)
  palCount := pal.length / 3

/-- Everything the container parser can do: its four errors in their order (R103, R105, R106), or the context. -/
theorem parse_cases (pal blob : List Byte) (d : Int) :
    (blob.length < Config.headerBytes ∧ parse pal blob d = .error .malformedHeader) ∨
    (Config.headerBytes ≤ blob.length ∧ blob.length < headerLen (field blob 12).toNat ∧
      parse pal blob d = .error .malformedHeader) ∨
    (Config.headerBytes ≤ blob.length ∧ headerLen (field blob 12).toNat ≤ blob.length ∧ d ≠ blob.length ∧
      parse pal blob d = .error .sizeMismatch) ∨
    (Config.headerBytes ≤ blob.length ∧ headerLen (field blob 12).toNat ≤ blob.length ∧ d = blob.length ∧
      Config.paletteCapacity < pal.length / 3 ∧ parse pal blob d = .error .paletteTooLarge) ∨
    (Config.headerBytes ≤ blob.length ∧ headerLen (field blob 12).toNat ≤ blob.length ∧ d = blob.length ∧
      pal.length / 3 ≤ Config.paletteCapacity ∧ parse pal blob d = .ok (parsedContext pal blob)) := by
  by_cases h1 : blob.length < Config.headerBytes
  · exact .inl ⟨h1, by simp [parse, h1]⟩
  by_cases h2 : blob.length < headerLen (field blob 12).toNat
  · exact .inr (.inl ⟨by omega, h2, by simp [parse, h1, h2]⟩)
  by_cases h3 : d = blob.length
  · have hr : ¬(d - (headerLen (field blob 12).toNat : Int) < 0 ∨
        d - (headerLen (field blob 12).toNat : Int) ≠
          (blob.length : Int) - (headerLen (field blob 12).toNat : Int)) := by omega
    by_cases h4 : Config.paletteCapacity < pal.length / 3
    · exact .inr (.inr (.inr (.inl ⟨by omega, by omega, h3, h4, by
        simp only [parse, if_neg h1, if_neg h2, if_neg hr, if_pos h4]⟩)))
    · refine .inr (.inr (.inr (.inr ⟨by omega, by omega, h3, by omega, ?_⟩)))
      have ht : (blob.drop (headerLen (field blob 12).toNat)).take
          (d - (headerLen (field blob 12).toNat : Int)).toNat = blob.drop (headerLen (field blob 12).toNat) :=
        List.take_of_length_le (by rw [List.length_drop]; omega)
      simp only [parse, if_neg h1, if_neg h2, if_neg hr, if_neg h4, ht, parsedContext]
  · have hr : d - (headerLen (field blob 12).toNat : Int) < 0 ∨
        d - (headerLen (field blob 12).toNat : Int) ≠
          (blob.length : Int) - (headerLen (field blob 12).toNat : Int) := by omega
    exact .inr (.inr (.inl ⟨by omega, by omega, h3, by simp only [parse, if_neg h1, if_neg h2, if_pos hr]⟩))

/-- The DECODE prologue passes exactly under its four conditions (R151 to R154). -/
theorem prologue_ok_iff {ctxs : List Context} {l : Operands} {v : Context} {f : Nat} :
    prologue ctxs l = .ok (v, f) ↔
      l.destStride = 4#64 ∧ getContext ctxs (asS64 l.handle) = some v ∧ 0 ≤ asS64 l.frame ∧
        asS64 l.frame < v.frameCount.toNat ∧ pixelCount v ≤ l.destPixels.toNat ∧ f = (asS64 l.frame).toNat := by
  by_cases h1 : l.destStride = 4#64
  · cases h2 : getContext ctxs (asS64 l.handle) with
    | none => simp [prologue, h1, h2]
    | some u =>
      by_cases h3 : asS64 l.frame < 0 ∨ (u.frameCount.toNat : Int) ≤ asS64 l.frame
      · simp only [prologue, h1, h2, if_pos h3, ne_eq, not_true_eq_false, if_false, true_and, Option.some.injEq,
          reduceCtorEq, false_iff]
        rintro ⟨rfl, h⟩
        omega
      · by_cases h4 : l.destPixels.toNat < pixelCount u
        · simp only [prologue, h1, h2, if_neg h3, if_pos h4, ne_eq, not_true_eq_false, if_false, true_and,
            Option.some.injEq, reduceCtorEq, false_iff]
          rintro ⟨rfl, h⟩
          omega
        · simp only [prologue, h1, h2, if_neg h3, if_neg h4, ne_eq, not_true_eq_false, if_false, true_and,
            Option.some.injEq, Except.ok.injEq, Prod.mk.injEq]
          constructor
          · rintro ⟨rfl, rfl⟩
            exact ⟨rfl, by omega, by omega, by omega, rfl⟩
          · rintro ⟨rfl, -, -, -, rfl⟩
            exact ⟨rfl, rfl⟩
  · simp [prologue, h1]

/-- A handle names a context exactly when it is in range (R130, R132). -/
theorem getContext_eq_some {ctxs : List Context} {h : Int} {v : Context} :
    getContext ctxs h = some v ↔ 0 ≤ h ∧ ctxs[h.toNat]? = some v := by
  unfold getContext
  split
  · rename_i hr
    simp only [reduceCtorEq, false_iff, not_and]
    intro h0
    rw [List.getElem?_eq_none (by omega)]
    simp
  · rename_i hr
    exact ⟨fun h' => ⟨by omega, h'⟩, fun h' => h'.2⟩

/-- Everything LOAD can do (R102): a bad palette length, a refused read, or the outcome for the bytes read. -/
theorem execLoad_cases (s : State) :
    (s.latched.palLen.toNat % 3 ≠ 0 ∧ execLoad s = .next (raise .badCommand none s)) ∨
    (s.latched.palLen.toNat % 3 = 0 ∧
      (hmemAdmit s.platform s.latched.palBase.toNat s.latched.palLen.toNat .read = false ∨
        hmemAdmit s.platform s.latched.blobBase.toNat s.latched.blobLen.toNat .read = false) ∧
      execLoad s = .fault .hostMemoryRefused) ∨
    (s.latched.palLen.toNat % 3 = 0 ∧
      hmemAdmit s.platform s.latched.palBase.toNat s.latched.palLen.toNat .read = true ∧
      hmemAdmit s.platform s.latched.blobBase.toNat s.latched.blobLen.toNat .read = true ∧
      execLoad s = .next (loadParsed (Memory.read s.mem s.latched.palBase.toNat s.latched.palLen.toNat)
        (Memory.read s.mem s.latched.blobBase.toNat s.latched.blobLen.toNat) s)) := by
  by_cases h : s.latched.palLen.toNat % 3 = 0
  · cases h1 : hmemAdmit s.platform s.latched.palBase.toNat s.latched.palLen.toNat .read
    · exact .inr (.inl ⟨h, .inl rfl, by simp [execLoad, hmemRead, h, h1]⟩)
    · cases h2 : hmemAdmit s.platform s.latched.blobBase.toNat s.latched.blobLen.toNat .read
      · exact .inr (.inl ⟨h, .inr rfl, by simp [execLoad, hmemRead, h, h1, h2]⟩)
      · exact .inr (.inr ⟨h, rfl, rfl, by simp [execLoad, hmemRead, h, h1, h2]⟩)
  · exact .inl ⟨h, by simp [execLoad, h]⟩

/-- The outcome of a LOAD whose reads are made: a parse error, a full store, or the new context (R102, R109, R110). -/
theorem loadParsed_cases (pal blob : List Byte) (s : State) :
    (∃ e, parse pal blob (asS64 s.latched.declaredSize) = .error e ∧ loadParsed pal blob s = raise e none s) ∨
    (∃ c, parse pal blob (asS64 s.latched.declaredSize) = .ok c ∧ hasCapacity s c = false ∧
      loadParsed pal blob s = raise .capacityExceeded none s) ∨
    (∃ c, parse pal blob (asS64 s.latched.declaredSize) = .ok c ∧ hasCapacity s c = true ∧
      loadParsed pal blob s = loadContext c s) := by
  unfold loadParsed
  cases h : parse pal blob (asS64 s.latched.declaredSize) with
  | error e => exact .inl ⟨e, rfl, rfl⟩
  | ok c =>
    cases h2 : hasCapacity s c with
    | false => exact .inr (.inl ⟨c, rfl, h2, by simp [h2]⟩)
    | true => exact .inr (.inr ⟨c, rfl, h2, by simp [h2]⟩)

/-- Everything DECODE's prologue step can do (R151): the first failed check's error, or the start of the pixel loop. -/
theorem execDecode_cases (s : State) :
    (∃ e, prologue s.ctxs s.latched = .error e ∧ execDecode s = .next (raise e none s)) ∨
    (∃ v f, prologue s.ctxs s.latched = .ok (v, f) ∧
      execDecode s = .next { s with eState := .decoding,
                                    work := startWork (asS64 s.latched.handle).toNat v f s.work }) := by
  unfold execDecode
  cases h : prologue s.ctxs s.latched with
  | error e => exact .inl ⟨e, rfl, rfl⟩
  | ok p => exact .inr ⟨p.1, p.2, rfl, rfl⟩

/-- What the fetch part of the pixel step can do (R181, R182, R186). -/
theorem loadRun_cases (l p : Byte) (w : Work) :
    (w.rem = 0#8 ∧ l = 0#8 ∧ loadRun l p w = .error .zeroLengthRun) ∨
    (w.rem = 0#8 ∧ l ≠ 0#8 ∧
      loadRun l p w = .ok { w with cursor := nextCursor w, started := true, rem := l, idx := p }) ∨
    (w.rem ≠ 0#8 ∧ loadRun l p w = .ok w) := by
  unfold loadRun
  by_cases h : w.rem = 0#8
  · by_cases h' : l = 0#8
    · exact .inl ⟨h, h', by simp [h, h']⟩
    · exact .inr (.inl ⟨h, h', by simp [h, h']⟩)
  · exact .inr (.inr ⟨h, by simp [h]⟩)

/-- Everything the pixel step can do with a pair (R181): no context, an error of the fetch, a bad palette index, a refused
write, or the pixel. -/
theorem pixelStep_cases (l p : Byte) (s : State) :
    (s.ctxs[s.work.ctxIndex]? = none ∧ pixelStep l p s = .fault .noRule) ∨
    (∃ v, s.ctxs[s.work.ctxIndex]? = some v ∧
      ((∃ e, loadRun l p s.work = .error e ∧ pixelStep l p s = .next (raisePixel e (nextCursor s.work) s)) ∨
       (∃ w, loadRun l p s.work = .ok w ∧ v.palCount ≤ w.idx.toNat ∧
          pixelStep l p s = .next (raisePixel .invalidPaletteIndex w.cursor s)) ∨
       (∃ w, loadRun l p s.work = .ok w ∧ w.idx.toNat < v.palCount ∧
          hmemAdmit s.platform (pixelAddr s.latched w.pixel) 4 .write = false ∧
          pixelStep l p s = .fault .hostMemoryRefused) ∨
       (∃ w, loadRun l p s.work = .ok w ∧ w.idx.toNat < v.palCount ∧
          hmemAdmit s.platform (pixelAddr s.latched w.pixel) 4 .write = true ∧
          pixelStep l p s = .next { s with
            mem := Memory.write s.mem (pixelAddr s.latched w.pixel) (pixelBytes (paletteEntry v w.idx)),
            work := countPixel w }))) := by
  unfold pixelStep
  cases h : s.ctxs[s.work.ctxIndex]? with
  | none => exact .inl ⟨rfl, rfl⟩
  | some v =>
    refine .inr ⟨v, rfl, ?_⟩
    cases h2 : loadRun l p s.work with
    | error e => exact .inl ⟨e, rfl, rfl⟩
    | ok w =>
      by_cases h3 : v.palCount ≤ w.idx.toNat
      · exact .inr (.inl ⟨w, rfl, h3, by simp [h3]⟩)
      · have hl : (pixelBytes (paletteEntry v w.idx)).length = 4 := rfl
        cases h4 : hmemAdmit s.platform (pixelAddr s.latched w.pixel) 4 .write with
        | false => exact .inr (.inr (.inl ⟨w, rfl, by omega, h4, by simp [h3, hmemWrite, hl, h4]⟩))
        | true => exact .inr (.inr (.inr ⟨w, rfl, by omega, h4, by simp [h3, hmemWrite, hl, h4]⟩))

/-- What the next pixel is made from (R182, R184). -/
theorem currentRun_cases (v : Context) (w : Work) :
    (w.rem = 0#8 ∧ v.rle.length < nextCursor w + 2 ∧ currentRun v w = .error .truncatedPair) ∨
    (w.rem = 0#8 ∧ nextCursor w + 2 ≤ v.rle.length ∧
      currentRun v w = .ok (decodePair (byteAt v.rle (nextCursor w)) (byteAt v.rle (nextCursor w + 1)))) ∨
    (w.rem ≠ 0#8 ∧ currentRun v w = .ok (.run w.rem w.idx)) := by
  unfold currentRun
  by_cases h : w.rem = 0#8
  · rw [if_pos h]
    by_cases h2 : v.rle.length < nextCursor w + 2
    · refine .inl ⟨h, h2, ?_⟩
      match hd : v.rle.drop (nextCursor w) with
      | [] => rfl
      | [_] => rfl
      | _ :: _ :: tl =>
        have := congrArg List.length hd
        simp only [List.length_drop, List.length_cons] at this
        omega
    · refine .inr (.inl ⟨h, by omega, ?_⟩)
      have e1 : v.rle.drop (nextCursor w) =
          v.rle[nextCursor w]'(by omega) :: v.rle[nextCursor w + 1]'(by omega) :: v.rle.drop (nextCursor w + 2) := by
        rw [List.drop_eq_getElem_cons (by omega), List.drop_eq_getElem_cons (by omega)]
      have b1 : byteAt v.rle (nextCursor w) = v.rle[nextCursor w]'(by omega) := by
        simp [byteAt, List.getD_eq_getElem?_getD, List.getElem?_eq_getElem (show nextCursor w < v.rle.length by omega)]
      have b2 : byteAt v.rle (nextCursor w + 1) = v.rle[nextCursor w + 1]'(by omega) := by
        simp [byteAt, List.getD_eq_getElem?_getD,
          List.getElem?_eq_getElem (show nextCursor w + 1 < v.rle.length by omega)]
      rw [e1, b1, b2]
      rfl
  · exact .inr (.inr ⟨h, by rw [if_neg h]⟩)

/-- exec of a decoded run pair is the pixel step with its two bytes, whether the length is 0 or not. -/
theorem exec_decodePair (l p : Byte) (s : State) : exec (decodePair l p) s = pixelStep l p s := by
  unfold decodePair
  split
  · rename_i h
    simp [exec, execRunZero, h]
  · rfl

/-- Everything an Engine step in DECODING can do (R157, R158, R181): complete, end in TruncatedRunStream, take the pixel
step with the pair at the cursor or with what is left of the current run, or stand where no rule applies. -/
theorem engineStep_decoding_cases {s : State} (hs : s.eState = .decoding) :
    (s.work.pixel = s.work.npix ∧ engineStep s = .next (complete s)) ∨
    (s.work.npix < s.work.pixel ∧ engineStep s = .fault .noRule) ∨
    (s.work.pixel < s.work.npix ∧ s.ctxs[s.work.ctxIndex]? = none ∧ engineStep s = .fault .noRule) ∨
    (∃ v, s.work.pixel < s.work.npix ∧ s.ctxs[s.work.ctxIndex]? = some v ∧
      ((s.work.rem = 0#8 ∧ v.rle.length < nextCursor s.work + 2 ∧
          engineStep s = .next (raisePixel .truncatedRunStream (nextCursor s.work) s)) ∨
       (s.work.rem = 0#8 ∧ nextCursor s.work + 2 ≤ v.rle.length ∧
          engineStep s =
            pixelStep (byteAt v.rle (nextCursor s.work)) (byteAt v.rle (nextCursor s.work + 1)) s) ∨
       (s.work.rem ≠ 0#8 ∧ engineStep s = pixelStep s.work.rem s.work.idx s))) := by
  unfold engineStep
  rw [hs]
  by_cases h1 : s.work.pixel < s.work.npix
  · cases h2 : s.ctxs[s.work.ctxIndex]? with
    | none => exact .inr (.inr (.inl ⟨h1, rfl, by simp [h1]⟩))
    | some v =>
      refine .inr (.inr (.inr ⟨v, h1, rfl, ?_⟩))
      obtain ⟨h3, h4, h5⟩ | ⟨h3, h4, h5⟩ | ⟨h3, h5⟩ := currentRun_cases v s.work
      · exact .inl ⟨h3, h4, by simp [h1, h5]⟩
      · exact .inr (.inl ⟨h3, h4, by simp [h1, h5, exec_decodePair]⟩)
      · exact .inr (.inr ⟨h3, by simp [h1, h5, exec, execRun]⟩)
  · by_cases h2 : s.work.pixel = s.work.npix
    · exact .inl ⟨h2, by simp [h2]⟩
    · exact .inr (.inl ⟨by omega, by simp [h1, h2]⟩)

/-- An Engine step in IDLE does nothing (R230). -/
theorem engineStep_idle {s : State} (hs : s.eState = .idle) : engineStep s = .next s := by
  simp [engineStep, hs]

/-- An Engine step in PENDING takes the command E_OP names (R77). -/
theorem engineStep_pending {s : State} (hs : s.eState = .pending) : engineStep s = exec (decodeOp s.eOp) s := by
  simp [engineStep, hs]

/-- The Engine is stuck exactly when its step is refused by host memory (R53, R218). -/
theorem engineStuck_iff (s : State) : engineStuck s = true ↔ engineStep s = .fault .hostMemoryRefused := by
  unfold engineStuck
  cases engineStep s with
  | next t => simp
  | fault f => cases f <;> simp
  | refused r => simp

/-- Which agent moves (R60): everything a step of the machine can be. -/
theorem step_cases (s : State) :
    (∃ rest, s.turns = .engine :: rest ∧ step s = engineTurn { s with turns := rest }) ∨
    (∃ rest, s.turns = .host :: rest ∧ step s = hostStep { s with turns := rest }) ∨
    (s.turns = [] ∧ s.eState ≠ .idle ∧ engineStuck s = false ∧ step s = engineStep s) ∨
    (s.turns = [] ∧ (s.eState = .idle ∨ engineStuck s = true) ∧ step s = hostStep s) := by
  match h : s.turns with
  | .engine :: rest => exact .inl ⟨rest, rfl, by simp [step, turnStep, h]⟩
  | .host :: rest => exact .inr (.inl ⟨rest, rfl, by simp [step, turnStep, h]⟩)
  | [] =>
    cases h2 : engineStuck s with
    | true => exact .inr (.inr (.inr ⟨rfl, .inr rfl, by simp [step, turnStep, h, h2]⟩))
    | false =>
      by_cases h3 : s.eState = .idle
      · exact .inr (.inr (.inr ⟨rfl, .inl h3, by simp [step, turnStep, h, busy, h3]⟩))
      · exact .inr (.inr (.inl ⟨rfl, h3, rfl, by simp [step, turnStep, h, h2, busy, h3]⟩))

/-- The Engine's turn: its step, or the turn passes when it is stuck. -/
theorem engineTurn_cases (s : State) :
    (engineStep s = .fault .hostMemoryRefused ∧ engineTurn s = .next s) ∨
    (engineStep s ≠ .fault .hostMemoryRefused ∧ engineTurn s = engineStep s) := by
  unfold engineTurn
  by_cases h : engineStuck s = true
  · exact .inl ⟨(engineStuck_iff s).1 h, by simp [h]⟩
  · exact .inr ⟨fun e => h ((engineStuck_iff s).2 e), by simp [h]⟩

/-- A Host step: the next action of its program, or nothing. -/
theorem hostStep_cases (s : State) :
    (s.hostProgram = [] ∧ hostStep s = .next s) ∨
    (∃ a rest, s.hostProgram = a :: rest ∧ hostStep s = hostAct a { s with hostProgram := rest }) := by
  unfold hostStep
  cases h : s.hostProgram with
  | nil => exact .inl ⟨rfl, rfl⟩
  | cons a rest => exact .inr ⟨a, rest, rfl, rfl⟩

/-- An access touches the register window exactly when the two have an address in common (R58). -/
theorem touchesWindow_iff {p : Config.Platform} {a n : Nat} :
    touchesWindow p a n = true ↔
      ∃ x, a ≤ x ∧ x < a + n ∧ p.regBase.toNat ≤ x ∧ x < p.regBase.toNat + Config.windowBytes := by
  simp only [touchesWindow, Bool.and_eq_true, decide_eq_true_eq]
  refine ⟨fun h => ⟨max p.regBase.toNat a, by omega, by omega, by omega, by simp only [Config.windowBytes] at *; omega⟩, ?_⟩
  rintro ⟨x, h⟩
  omega

/-- A Host read of host memory that is neither at the window nor past the last byte (R50, R251). -/
theorem hostMemRead_eq {a n : Nat} {s : State} (hw : touchesWindow s.platform a n = false)
    (hb : a + n ≤ Config.addrSpace) :
    hostMemRead a n s =
      .next { s with lastRead := .bytes ((List.range n).map (hostByte s a)),
                     hazard := s.hazard || readHazard s a n,
                     freeNext := if readHazard s a n then s.freeNext + n else s.freeNext } := by
  unfold hostMemRead
  rw [hw, if_neg (by simp), if_neg (by omega)]

/-- A Host write of host memory that is neither at the window nor past the last byte (R50, R251). -/
theorem hostMemWrite_eq {a : Nat} {bs : List Byte} {s : State} (hw : touchesWindow s.platform a bs.length = false)
    (hb : a + bs.length ≤ Config.addrSpace) :
    hostMemWrite a bs s =
      .next { s with mem := Memory.write s.mem a bs, hazard := s.hazard || writeHazard s a bs.length } := by
  unfold hostMemWrite
  rw [hw, if_neg (by simp), if_neg (by omega)]

end Sys2Proof.Machine
end

