-- ==== Sys2Proof/Laws/Steps.lean ====
section
/-! SUPPORT. What a step that answers a next state did: one inversion lemma for each instruction and for the Engine in each
of its states, and the runs of an idle Engine. -/

namespace Sys2Proof.Machine

/-- What the four bits of E_OP name (R77). -/
theorem decodeOp_cases (op : Op) :
    (op = 1 ∧ decodeOp op = .load) ∨ (op = 2 ∧ decodeOp op = .decode) ∨ (op = 3 ∧ decodeOp op = .clear) ∨
      (op ≠ 1 ∧ op ≠ 2 ∧ op ≠ 3 ∧ decodeOp op = .cmdReserved op) := by
  revert op
  decide

/-- The state after an error without info ends a command (R214), field by field. -/
theorem raise_none (e : CmdError) (s : State) :
    raise e none s = { s with eState := .idle, done := true, err := e.code } := rfl

/-- Under the policy `prefix` the destination stays as it is (R162). -/
theorem spoilDest_writtenPrefix {s : State} (h : s.platform.errorDest = .writtenPrefix) : spoilDest s = s := by
  unfold spoilDest
  rw [h]

/-- A pixel-loop error under the policy `prefix` (R162, R214), field by field. -/
theorem raisePixel_writtenPrefix {e : CmdError} {c : Nat} {s : State} (h : s.platform.errorDest = .writtenPrefix) :
    raisePixel e c s =
      { s with eState := .idle, done := true, err := e.code, errPixel := BitVec.ofNat 64 s.work.pixel,
               errCursor := BitVec.ofNat 64 c } := by
  unfold raisePixel
  rw [spoilDest_writtenPrefix h]
  rfl

/-- The run whose pixel the pixel step writes keeps I, NPIX and H, and has pixels to go. -/
theorem loadRun_ok {l p : Byte} {w w' : Work} (h : loadRun l p w = .ok w') :
    w'.pixel = w.pixel ∧ w'.npix = w.npix ∧ w'.ctxIndex = w.ctxIndex ∧ w'.rem ≠ 0#8 := by
  obtain ⟨-, -, h'⟩ | ⟨-, hl, h'⟩ | ⟨hr, h'⟩ := loadRun_cases l p w <;> rw [h'] at h <;> cases h
  · exact ⟨rfl, rfl, rfl, hl⟩
  · exact ⟨rfl, rfl, rfl, hr⟩

/-- A fetch fails in one way only: a pair of length 0 (R186). -/
theorem loadRun_error {l p : Byte} {w : Work} {e : CmdError} (h : loadRun l p w = .error e) :
    w.rem = 0#8 ∧ l = 0#8 ∧ e = .zeroLengthRun := by
  obtain ⟨hr, hl, h'⟩ | ⟨-, -, h'⟩ | ⟨-, h'⟩ := loadRun_cases l p w <;> rw [h'] at h <;> cases h
  exact ⟨hr, hl, rfl⟩

/-- The cursor a pixel step works at: where it fetches, that of the fetch (R182); else that of the current run. -/
def workCursor (w : Work) : Nat := if w.rem = 0#8 then nextCursor w else w.cursor

/-- The cursor of the run whose pixel the pixel step writes. -/
theorem loadRun_ok_cursor {l p : Byte} {w w' : Work} (h : loadRun l p w = .ok w') : w'.cursor = workCursor w := by
  unfold workCursor
  obtain ⟨-, -, h'⟩ | ⟨hr, -, h'⟩ | ⟨hr, h'⟩ := loadRun_cases l p w <;> rw [h'] at h <;> cases h
  · rw [if_pos hr]
  · rw [if_neg hr]

/-- What a pixel step did (R181): it ended the command at the cursor it works at, or it stored four bytes at pixel I and counted the pixel. -/
theorem pixelStep_next {l p : Byte} {s t : State} (h : pixelStep l p s = .next t) :
    (∃ e, (e = .zeroLengthRun ∨ e = .invalidPaletteIndex) ∧ t = raisePixel e (workCursor s.work) s) ∨
    (∃ v w, s.ctxs[s.work.ctxIndex]? = some v ∧ loadRun l p s.work = .ok w ∧ w.idx.toNat < v.palCount ∧
      hmemAdmit s.platform (pixelAddr s.latched s.work.pixel) 4 .write = true ∧
      t = { s with
        mem := Memory.write s.mem (pixelAddr s.latched s.work.pixel) (pixelBytes (paletteEntry v w.idx)),
        work := countPixel w }) := by
  obtain ⟨-, h1⟩ | ⟨v, hv, ⟨e, he, h1⟩ | ⟨w, hl, -, h1⟩ | ⟨w, -, -, -, h1⟩ | ⟨w, hl, hp, ha, h1⟩⟩ :=
    pixelStep_cases l p s <;> rw [h1] at h
  · cases h
  · obtain ⟨hr, -, rfl⟩ := loadRun_error he
    exact .inl ⟨_, .inl rfl, by rw [workCursor, if_pos hr]; exact (next_inj.1 h).symm⟩
  · exact .inl ⟨_, .inr rfl, by rw [← loadRun_ok_cursor hl]; exact (next_inj.1 h).symm⟩
  · cases h
  · rw [(loadRun_ok hl).1] at ha h
    exact .inr ⟨v, w, hv, hl, hp, ha, (next_inj.1 h).symm⟩

/-- What LOAD did (R102): it ended in one of its five errors, or it made a context. -/
theorem execLoad_next {s t : State} (h : execLoad s = .next t) :
    (∃ e, (e = .badCommand ∨ e = .capacityExceeded ∨ e = .malformedHeader ∨ e = .sizeMismatch ∨ e = .paletteTooLarge) ∧
      t = raise e none s) ∨
    ∃ c, t = loadContext c s := by
  obtain ⟨-, h1⟩ | ⟨-, -, h1⟩ | ⟨-, -, -, h1⟩ := execLoad_cases s <;> rw [h1] at h
  · exact .inl ⟨_, by simp, (next_inj.1 h).symm⟩
  · cases h
  · have h := next_inj.1 h
    revert h
    generalize Memory.read s.mem s.latched.palBase.toNat s.latched.palLen.toNat = pal
    generalize Memory.read s.mem s.latched.blobBase.toNat s.latched.blobLen.toNat = blob
    intro h
    obtain ⟨e, he, h2⟩ | ⟨c, -, -, h2⟩ | ⟨c, -, -, h2⟩ := loadParsed_cases pal blob s
    · refine .inl ⟨e, ?_, h ▸ h2⟩
      obtain ⟨-, h3⟩ | ⟨-, -, h3⟩ | ⟨-, -, -, h3⟩ | ⟨-, -, -, -, h3⟩ | ⟨-, -, -, -, h3⟩ :=
        parse_cases pal blob (asS64 s.latched.declaredSize) <;> rw [h3] at he <;> cases he <;> simp
    · exact .inl ⟨_, by simp, h ▸ h2⟩
    · exact .inr ⟨c, h ▸ h2⟩

/-- The errors of DECODE's prologue (R151). -/
theorem prologue_error {ctxs : List Context} {l : Operands} {e : CmdError} (h : prologue ctxs l = .error e) :
    e = .badCommand ∨ e = .notFound ∨ e = .frameIndexOutOfRange ∨ e = .bufferTooSmall := by
  unfold prologue at h
  repeat' split at h
  all_goals cases h
  all_goals simp

/-- What an Engine step did in PENDING (R77): it ended in an error that is not a pixel-loop error, or it ran one of the three
commands. -/
theorem engineStep_pending_next {s t : State} (hs : s.eState = .pending) (h : engineStep s = .next t) :
    (∃ e, e ≠ .zeroLengthRun ∧ e ≠ .invalidPaletteIndex ∧ e ≠ .truncatedRunStream ∧ t = raise e none s) ∨
    (s.eOp = 1 ∧ ∃ c, t = loadContext c s) ∨
    (s.eOp = 2 ∧ ∃ v f, prologue s.ctxs s.latched = .ok (v, f) ∧
      t = { s with eState := .decoding, work := startWork (asS64 s.latched.handle).toNat v f s.work }) ∨
    (s.eOp = 3 ∧ t = complete { s with ctxs := [] }) := by
  rw [engineStep_pending hs] at h
  obtain ⟨ho, h1⟩ | ⟨ho, h1⟩ | ⟨ho, h1⟩ | ⟨-, -, -, h1⟩ := decodeOp_cases s.eOp <;> rw [h1] at h
  · obtain ⟨e, he, ht⟩ | hc := execLoad_next h
    · exact .inl ⟨e, by rcases he with rfl | rfl | rfl | rfl | rfl <;> simp [ht]⟩
    · exact .inr (.inl ⟨ho, hc⟩)
  · simp only [exec] at h
    obtain ⟨e, he, h2⟩ | ⟨v, f, hp, h2⟩ := execDecode_cases s <;> rw [h2] at h
    · have ht := (next_inj.1 h).symm
      exact .inl ⟨e, by rcases prologue_error he with rfl | rfl | rfl | rfl <;> simp [ht]⟩
    · exact .inr (.inr (.inl ⟨ho, v, f, hp, (next_inj.1 h).symm⟩))
  · exact .inr (.inr (.inr ⟨ho, (next_inj.1 h).symm⟩))
  · exact .inl ⟨.badCommand, by simp, by simp, by simp, (next_inj.1 h).symm⟩

/-- What an Engine step did in DECODING (R157, R158): it completed the command, ended it in a pixel-loop error
at the cursor it works at, or stored four bytes at pixel I and counted the pixel. -/
theorem engineStep_decoding_next {s t : State} (hs : s.eState = .decoding) (h : engineStep s = .next t) :
    (s.work.pixel = s.work.npix ∧ t = complete s) ∨
    (s.work.pixel < s.work.npix ∧
      ∃ e, (e = .zeroLengthRun ∨ e = .invalidPaletteIndex ∨ e = .truncatedRunStream) ∧
        t = raisePixel e (workCursor s.work) s) ∨
    (s.work.pixel < s.work.npix ∧ ∃ v w bs, s.ctxs[s.work.ctxIndex]? = some v ∧ w.pixel = s.work.pixel + 1 ∧
      w.npix = s.work.npix ∧ w.ctxIndex = s.work.ctxIndex ∧ bs.length = 4 ∧
      hmemAdmit s.platform (pixelAddr s.latched s.work.pixel) 4 .write = true ∧
      t = { s with mem := Memory.write s.mem (pixelAddr s.latched s.work.pixel) bs, work := w }) := by
  have pixel : ∀ l p, s.work.pixel < s.work.npix → pixelStep l p s = .next t →
      (∃ e, (e = .zeroLengthRun ∨ e = .invalidPaletteIndex ∨ e = .truncatedRunStream) ∧
        t = raisePixel e (workCursor s.work) s) ∨
      (∃ v w bs, s.ctxs[s.work.ctxIndex]? = some v ∧ w.pixel = s.work.pixel + 1 ∧
        w.npix = s.work.npix ∧ w.ctxIndex = s.work.ctxIndex ∧ bs.length = 4 ∧
        hmemAdmit s.platform (pixelAddr s.latched s.work.pixel) 4 .write = true ∧
        t = { s with mem := Memory.write s.mem (pixelAddr s.latched s.work.pixel) bs, work := w }) := by
    intro l p _ hp
    obtain ⟨e, he, ht⟩ | ⟨v, w, hv, hl, -, ha, ht⟩ := pixelStep_next hp
    · exact .inl ⟨e, by tauto, ht⟩
    · obtain ⟨h1, h2, h3, -⟩ := loadRun_ok hl
      exact .inr ⟨v, countPixel w, _, hv, by rw [← h1]; rfl, h2, h3, rfl, ha, ht⟩
  obtain ⟨hx, h1⟩ | ⟨-, h1⟩ | ⟨-, -, h1⟩ | ⟨v, hx, -, ⟨hr, -, h1⟩ | ⟨-, -, h1⟩ | ⟨-, h1⟩⟩ :=
    engineStep_decoding_cases hs <;> rw [h1] at h
  · exact .inl ⟨hx, (next_inj.1 h).symm⟩
  · cases h
  · cases h
  · exact .inr (.inl ⟨hx, _, .inr (.inr rfl), by rw [workCursor, if_pos hr]; exact (next_inj.1 h).symm⟩)
  · obtain h2 | h2 := pixel _ _ hx h
    · exact .inr (.inl ⟨hx, h2⟩)
    · exact .inr (.inr ⟨hx, h2⟩)
  · obtain h2 | h2 := pixel _ _ hx h
    · exact .inr (.inl ⟨hx, h2⟩)
    · exact .inr (.inr ⟨hx, h2⟩)

/-- An idle Engine stays as it is, however often it is asked (R230). -/
theorem engineRun_idle {s : State} (h : s.eState = .idle) (k : Nat) : engineRun k s = .next s := by
  induction k with
  | zero => rfl
  | succ k ih => simp [engineRun, engineStep_idle h, ih]

/-- Once the Engine is idle, more of its steps change nothing. -/
theorem engineRun_add {k : Nat} {s t : State} (h : engineRun k s = .next t) (ht : t.eState = .idle) (j : Nat) :
    engineRun (k + j) s = .next t := by
  induction k generalizing s with
  | zero =>
    obtain rfl := next_inj.1 h
    simpa using engineRun_idle ht j
  | succ k ih =>
    rw [Nat.succ_add]
    simp only [engineRun] at h ⊢
    cases hs : engineStep s with
    | next u => rw [hs] at h; exact ih h
    | fault f => rw [hs] at h; cases h
    | refused f => rw [hs] at h; cases h

/-- Registers other than STATUS read the same in states that agree on the registers behind them (R21). -/
theorem readReg_congr {s t : State} {off : Nat} (h : off ≠ 0x08) (ha : t.args = s.args) (hr : t.res = s.res)
    (hc : t.ctxs = s.ctxs) (hp : t.errPixel = s.errPixel) (hu : t.errCursor = s.errCursor) :
    readReg t off = readReg s off := by
  unfold readReg
  rw [if_neg h, if_neg h, ha, hr, hp, hu, vidCount, vidCount, hc]

end Sys2Proof.Machine
end

