-- ==== Sys2Proof/Tests/Slice0.lean ====
section
/-! SUPPORT. The model's own tests: ill-formed terms, words written out from the encoding tables, at most two steps for each
instruction, and a witness for the hypotheses of every statement. Expected values are the vectors of 95_test_vectors.md, named
in each docstring. -/

namespace Sys2Proof.Tests

open Sys2Proof Sys2Proof.Machine Sys2Proof.Safety Sys2Proof.Claims

/-! ### Small states -/

/-- A part of the state an answer leaves. -/
def after {α : Type} (f : State → α) : Answer → Option α
  | .next t => some (f t)
  | .fault _ => none
  | .refused _ => none

/-- The palette bytes P2 of 95_test_vectors.md. -/
def palBytes : List Byte := [0x0A, 0x14, 0x1E, 0x64, 0x6E, 0x78]

/-- The blob of V-L2. -/
def blobL2 : List Byte :=
  [0x02, 0, 0, 0, 0x02, 0, 0, 0, 0x0C, 0, 0, 0, 0x01, 0, 0, 0, 0, 0, 0, 0, 0x02, 0x00, 0x02, 0x01]

/-- Operands of a LOAD of V-L2 and of a DECODE of its frame. -/
def ops : Operands where
  handle := 0
  frame := 0
  destBase := 0x8000
  destPixels := 4
  destStride := 4
  palBase := 0x1000
  palLen := 6
  blobBase := 0x2000
  blobLen := 24
  declaredSize := 24

/-- A command accepted and not yet taken. -/
def pendingOf (op : Op) (l : Operands) (s : State) : State := { s with eState := .pending, eOp := op, latched := l }

/-- A pending LOAD over V-L2's palette and blob. -/
def loading (l : Operands) : State :=
  pendingOf 1 l { State.reset with mem := Memory.write (Memory.write [] 0x1000 palBytes) 0x2000 blobL2 }

/-- A one-frame context with the palette P2, of which `n` entries are populated. -/
def video (w h : U32) (n : Nat) (rle : List Byte) : Context where
  width := w
  height := h
  fps := 12
  frameCount := 1
  offsets := [0]
  rle := rle
  pal := (if n = 0 then [] else if n = 1 then [⟨10, 20, 30⟩] else [⟨10, 20, 30⟩, ⟨100, 110, 120⟩])
    ++ List.replicate (256 - min n 2) Color.black
  palCount := n

/-- V-L2's context. -/
def videoL2 : Context := video 2 2 2 [2, 0, 2, 1]

/-- A pending DECODE of V-L2. -/
def decodePending (l : Operands) : State := pendingOf 2 l { State.reset with ctxs := [videoL2] }

/-- A DECODE of the context `v` at pixel `i` of `n`. -/
def decoding (v : Context) (n i c : Nat) (started : Bool) (rem idx : Byte) : State :=
  { State.reset with ctxs := [v], eState := .decoding, eOp := 2, latched := ops, work := ⟨0, n, i, c, started, rem, idx⟩ }

/-- STATUS, ERR_PIXEL and ERR_CURSOR. -/
def outcome (s : State) : Word × Word × Word := (statusWord s, s.errPixel, s.errCursor)

/-- A Host with one action to take, and its turn. -/
def hostOn (a : HostAction) (s : State) : State := { s with hostProgram := [a], turns := [.host] }

/-- The Engine's turn. -/
def engineOn (s : State) : State := { s with turns := [.engine] }

/-! ### Ill-formed terms -/

theorem test_wf_run_zero_length_refused : Instr.wf (.run 0 3) = false := by decide

theorem test_wf_reserved_names_no_command :
    Instr.wf (.cmdReserved 1) = false ∧ Instr.wf (.cmdReserved 2) = false ∧ Instr.wf (.cmdReserved 3) = false := by decide

theorem test_wf_boundaries :
    Instr.wf (.run 1 0) = true ∧ Instr.wf (.run 255 255) = true ∧ Instr.wf (.cmdReserved 0) = true ∧
      Instr.wf (.cmdReserved 4) = true ∧ Instr.wf (.cmdReserved 15) = true := by decide

/-! ### Words written out from the encoding tables (R24, R75, R77) -/

/-- E-4: CMD[3:0] = 0x1. -/
theorem test_decode_load : decode (.command 0b0001#64) = .ok .load := by decide

/-- E-5: CMD[3:0] = 0x2, with bits 63:4 set. -/
theorem test_decode_decode : decode (.command 0xFFFFFFFFFFFFFFF2#64) = .ok .decode := by decide

/-- CMD[3:0] = 0x3. -/
theorem test_decode_clear : decode (.command 0b0011#64) = .ok .clear := by decide

/-- E-6: CMD[3:0] = 0x0, 0x4, 0xF. -/
theorem test_decode_reserved :
    decode (.command 0x0#64) = .ok (.cmdReserved 0x0#4) ∧ decode (.command 0x4#64) = .ok (.cmdReserved 0x4#4) ∧
      decode (.command 0xF#64) = .ok (.cmdReserved 0xF#4) := by decide

/-- E-1 and E-2: the length in the first byte, the index in the second. -/
theorem test_decode_run :
    decode (.stream [0x04#8, 0x00#8]) = .ok (.run 4 0) ∧ decode (.stream [0xFF#8, 0x01#8]) = .ok (.run 255 1) := by
  decide

/-- E-3: a length of 0. -/
theorem test_decode_runZero : decode (.stream [0x00#8, 0x05#8]) = .ok (.runZero 5) := by decide

/-- R184: an odd last byte is no pair. -/
theorem test_decode_truncated :
    decode (.stream [0x02#8]) = .error .truncatedPair ∧ decode (.stream []) = .error .truncatedPair := by decide

/-- The rows' words as spec/opcode_table.json numbers them. -/
theorem test_decodeTableWord :
    decodeTableWord 64 0x1 = some .load ∧ decodeTableWord 64 0x2 = some .decode ∧ decodeTableWord 64 0x3 = some .clear ∧
      decodeTableWord 64 0x0 = some (.cmdReserved 0) ∧ decodeTableWord 8 0x1 = some .load ∧
      decodeTableWord 16 0x0004 = some (.run 4 0) ∧ decodeTableWord 16 0x0500 = some (.runZero 5) := by decide

/-- The placed word is the next instruction (R77, R181). -/
theorem test_withFetchWord_steps :
    after statusWord (step (State.reset.withFetchWord 64 0x3)) = some 0x2 ∧
      after statusWord (step (State.reset.withFetchWord 64 0x7)) = some 0xA02 ∧
      after statusWord (step (State.reset.withFetchWord 16 0x0500)) = some 0x802 := by decide

/-! ### One step of each instruction -/

/-- V-L2: STATUS 0x2, RES_HANDLE 0, width 2, height 2, fps 12, one frame, two palette entries, VID_COUNT 1. -/
theorem test_load_L2 :
    after (fun t => (statusWord t, t.res, vidCount t)) (exec .load (loading ops)) = some (0x2, ⟨0, 2, 2, 12, 1, 2⟩, 1) := by
  decide

/-- V-LD5: a declared size of -1 is SizeMismatch. -/
theorem test_load_declared_minus_one :
    after (fun t => (outcome t, vidCount t))
      (exec .load (loading { ops with declaredSize := 0xFFFFFFFFFFFFFFFF })) = some ((0x202, 0, 0), 0) := by decide

/-- V-DP6: the prologue of V-L2's frame 0. -/
theorem test_decode_prologue :
    after (fun t => (t.eState, t.work)) (exec .decode (decodePending ops)) = some (.decoding, ⟨0, 4, 0, 0, false, 0, 0⟩) := by
  decide

/-- V-DP2: the stride is checked before the handle. -/
theorem test_decode_stride_first :
    after outcome (exec .decode (decodePending { ops with handle := 5, destStride := 3 })) = some (0xA02, 0, 0) := by
  decide

/-- V-RG1 and V-RG2: STATUS 0x2, VID_COUNT 0. -/
theorem test_clear :
    after (fun t => (statusWord t, vidCount t)) (exec .clear (pendingOf 3 ops { State.reset with ctxs := [videoL2] })) =
      some (0x2, 0) := by decide

/-- E-6: BadCommand. -/
theorem test_cmdReserved : after outcome (exec (.cmdReserved 4) (pendingOf 4 ops State.reset)) = some (0xA02, 0, 0) := by
  decide

/-- V-L2's first pixel: `0A 14 1E FF` at the destination, and the registers of R182 and R191. -/
theorem test_run_first_pixel :
    after (fun t => (Memory.read t.mem 0x8000 5, t.work)) (exec (.run 2 0) (decoding videoL2 4 0 0 false 0 7)) =
      some ([0x0A, 0x14, 0x1E, 0xFF, 0], ⟨0, 4, 1, 0, true, 1, 0⟩) := by decide

/-- V-R8: InvalidPaletteIndex at the second pair, ERR_PIXEL 1, ERR_CURSOR 2. -/
theorem test_run_invalid_index :
    after outcome (exec (.run 1 1) (decoding (video 2 1 1 [1, 0, 1, 1]) 2 1 0 true 0 0)) = some (0x602, 1, 2) := by decide

/-- V-R7: ZeroLengthRun although the index is not populated. -/
theorem test_runZero_before_index :
    after outcome (exec (.runZero 5) (decoding (video 1 1 1 [0, 5]) 1 0 0 false 0 0)) = some (0x802, 0, 0) := by decide

/-- V-R4: ZeroLengthRun at the second pair, ERR_PIXEL 2, ERR_CURSOR 2. -/
theorem test_runZero_second_pair :
    after outcome (exec (.runZero 0) (decoding (video 2 2 2 [2, 0, 0, 0]) 4 2 0 true 0 0)) = some (0x802, 2, 2) := by decide

/-- E-9 and E-10: FILL. -/
theorem test_fill : fill 600 1 = [.run 255 1, .run 255 1, .run 90 1] ∧ fill 255 0 = [.run 255 0] := by decide

/-- The source of the program P2. -/
def sourceP2 : Source where
  width := 4
  height := 1
  fps := 24
  lead := []
  frames := [[.run 3 0, .run 1 1], [.run 1 1, .run 3 2]]
  palette := [⟨0, 0, 0⟩, ⟨255, 255, 255⟩, ⟨255, 0, 0⟩]

/-- P2's blob, the offset of its second frame 2. -/
theorem test_assemble_P2 :
    sourceP2.blob =
      [0x04, 0, 0, 0, 0x01, 0, 0, 0, 0x18, 0, 0, 0, 0x02, 0, 0, 0, 0, 0, 0, 0, 0x02, 0, 0, 0,
       0x03, 0x00, 0x01, 0x01, 0x01, 0x01, 0x03, 0x02] := by decide

/-! ### Witnesses: states that meet the hypotheses of the statements -/

theorem witness_ResetAbandonsTheCommand : (hostOn .reset (decodePending ops)).hostProgram = .reset :: [] := rfl

theorem witness_RegisterWindowAccessRules :
    (0x10 ∈ argOffsets ∧ 0x58 ∈ argOffsets ∧ (0x18 : Nat) ≠ 0x10) ∧
    (∀ off ∈ [0x08, 0x60, 0xA0, 0xA8, 0xF8], off % 8 = 0 ∧ off < 0x100 ∧ off ≠ 0 ∧ off ∉ argOffsets) ∧
    (∀ off ∈ [0x00, 0xF8], off % 8 = 0 ∧ off < 0x100) ∧ (0 = 0 ∨ 0xA8 ≤ 0) ∧ (0xA8 = 0 ∨ 0xA8 ≤ 0xA8) ∧
    ¬(32 = 64 ∧ 0 % 8 = 0 ∧ 0 < 0x100) ∧ ¬(64 = 64 ∧ 4 % 8 = 0 ∧ 4 < 0x100) ∧
      ¬(64 = 64 ∧ 0x100 % 8 = 0 ∧ 0x100 < 0x100) := by decide

theorem witness_StatusWordFields :
    ∀ k ∈ [2, 7, 12, 15, 17, 63], k ≠ 0 ∧ k ≠ 1 ∧ ¬(8 ≤ k ∧ k ≤ 11) ∧ k ≠ 16 := by decide

theorem witness_CommandAcceptance :
    State.reset.eState = .idle ∧ (decodePending ops).eState ≠ .idle ∧
      (decoding videoL2 4 0 0 false 0 0).eState ≠ .idle := by decide

theorem witness_CommandWordHighBitsIgnored :
    (∀ k, k < 4 → (0x2#64).getLsbD k = (0xFFFFFFFFFFFFFFF2#64).getLsbD k) ∧ 0x2#64 ≠ 0xFFFFFFFFFFFFFFF2#64 := by decide

/-- A step of each kind R37 names: a LOAD appends, a CLEAR empties, a reset empties, a register write keeps. -/
theorem witness_ContextStoreIsAppendOnly :
    (∃ t, step (loading ops) = .next t ∧ t.ctxs.length = 1) ∧
    (∃ t, step (pendingOf 3 ops { State.reset with ctxs := [videoL2] }) = .next t ∧ t.ctxs = []) ∧
    (∃ t, step (hostOn .reset (decodePending ops)) = .next t ∧ t.ctxs = []) ∧
    (∃ t, step (hostOn (.regWrite 0x10 64 5) (decodePending ops)) = .next t ∧ t.ctxs = [videoL2]) :=
  ⟨⟨_, rfl, by decide⟩, ⟨_, rfl, rfl⟩, ⟨_, rfl, rfl⟩, ⟨_, rfl, rfl⟩⟩

theorem witness_ResultsWrittenOnlyByLoad :
    (∃ t, step (loading ops) = .next t ∧ t.res ≠ (loading ops).res) ∧
    (∃ t, step (hostOn .reset { State.reset with res := ⟨1, 2, 3, 4, 5, 6⟩ }) = .next t ∧
      t.res ≠ (⟨1, 2, 3, 4, 5, 6⟩ : Results)) :=
  ⟨⟨_, rfl, by decide⟩, ⟨_, rfl, by decide⟩⟩

/-- HAZARD stays set in a step; each of the three Host accesses sets it. -/
theorem witness_HazardIsSticky :
    (∃ t, step { decodePending ops with hazard := true } = .next t ∧ t.hazard = true) ∧
    (∃ t, step (hostOn (.regWrite 0 64 3) (decodePending ops)) = .next t ∧ (decodePending ops).hazard = false ∧
      t.hazard = true) ∧
    (∃ t, step (hostOn (.memRead 0x7FFF 2) (decodePending ops)) = .next t ∧ t.hazard = true) ∧
    (∃ t, step (hostOn (.memWrite 0x2017 [1]) (loading ops)) = .next t ∧ t.hazard = true) :=
  ⟨⟨_, rfl, rfl⟩, ⟨_, rfl, rfl, rfl⟩, ⟨_, rfl, by decide⟩, ⟨_, rfl, by decide⟩⟩

theorem witness_WorkingRegistersUnreadBeforeWritten :
    (decodePending ops).eState ≠ .decoding ∧ (decoding videoL2 4 0 0 false 0 0).eState = .decoding ∧
      (decoding videoL2 4 0 0 false 0 0).work.rem = 0 := by decide

theorem witness_LatchedOperandsUnreadWhileIdle : State.reset.eState = .idle := rfl

theorem witness_HostMemoryReadBack :
    Memory.wf (Memory.write [] 0x1000 palBytes) = true ∧ State.reset.eState = .idle ∧
      (0xFFFFFFFFFFFFFEFF#64).toNat + [0xAA#8].length ≤ 2 ^ 64 ∧
      touchesWindow State.reset.platform (0xFFFFFFFFFFFFFEFF#64).toNat 1 = false := by decide

/-- A platform that refuses the Engine's read of the palette, its read of the blob, and its write of pixel 0. -/
def refusing : Config.Platform :=
  { Config.Platform.default with
    hmemRefused := [.region 0x1000 6 .read, .request 0x2000 24 .read, .region 0x8000 1 .write] }

theorem witness_RefusedRequestLeavesTheEngineStuck :
    (ops.palLen.toNat % 3 = 0 ∧ hmemAdmit refusing ops.palBase.toNat ops.palLen.toNat .read = false ∧
      hmemAdmit refusing ops.blobBase.toNat ops.blobLen.toNat .read = false) ∧
    ((decoding videoL2 4 0 0 false 0 0).work.rem = 0 ∧ (2 : Byte) ≠ 0 ∧ (0 : Byte).toNat < videoL2.palCount ∧
      hmemAdmit refusing (pixelAddr ops 0) 4 .write = false) ∧
    ((decoding videoL2 4 1 0 true 1 1).work.rem ≠ 0 ∧ (1 : Byte).toNat < videoL2.palCount ∧
      hmemAdmit refusing (0x8000 - 3) 4 .write = false) ∧
    2 ^ 64 < (2 ^ 64 - 3) + 4 ∧
    ({ loading ops with platform := refusing, turns := [.engine] } : State).eState ≠ .idle ∧
    engineStep { loading ops with platform := refusing, turns := [] } = .fault .hostMemoryRefused := by
  refine ⟨by decide, by decide, by decide, by decide, by decide, rfl⟩

theorem witness_EngineUsesOfHostMemory :
    ¬((decodePending ops).eState = .pending ∧ (decodePending ops).eOp = 1) ∧
      (∃ t, engineStep (decodePending ops) = .next t) ∧ (decodePending ops).eState ≠ .decoding :=
  ⟨by decide, ⟨_, rfl⟩, by decide⟩

theorem witness_DecodeAndEncodeAgree :
    (∀ i ∈ [Instr.load, .decode, .clear, .cmdReserved 0, .cmdReserved 15, .run 1 0, .run 255 255, .runZero 255],
      i.wf = true) ∧
    decode (.stream [0, 5, 9]) = .ok (.runZero 5) ∧ decode (.command 0x14) = .ok (.cmdReserved 4) := by decide

theorem witness_RunPairFields :
    (0x01FF#16).toNat = (0xFF#8).toNat + 256 * (0x01#8).toNat ∧ (0x0500#16).toNat = (0x00#8).toNat + 256 * (0x05#8).toNat ∧
      ([] : List Byte).length < 2 ∧ [0xFF#8].length < 2 := by decide

/-- P2's source, one with lines before its first `.frame`, and one with all 256 palette entries. -/
theorem witness_ParseReadsTheAssembledSource :
    (sourceP2.frames.length < 2 ^ 32 ∧ sourceP2.palette.length ≤ 256) ∧
    (∃ c : Source, c.lead = [.fill 256 0] ∧ c.frames.length = 1 ∧ c.frames.length < 2 ^ 32 ∧ c.palette.length ≤ 256) ∧
    (∃ c : Source, c.frames.length < 2 ^ 32 ∧ c.palette.length = 256 ∧ c.palette.length ≤ 256) :=
  ⟨by decide, ⟨⟨1, 1, 1, [.fill 256 0], [[.run 1 0]], []⟩, by decide⟩,
   ⟨⟨1, 1, 1, [], [], List.replicate 256 Color.black⟩, by decide, List.length_replicate, List.length_replicate.le⟩⟩

theorem witness_LoadCompletes :
    loadReads (loading ops) ∧ 16 ≤ (loading ops).latched.blobLen.toNat ∧
      loadHeader (loading ops) ≤ (loading ops).latched.blobLen.toNat ∧
      asS64 (loading ops).latched.declaredSize = (loading ops).latched.blobLen.toNat ∧
      (loading ops).latched.palLen.toNat / 3 ≤ 256 ∧ loadFits (loading ops) := by
  refine ⟨by unfold loadReads; decide, by decide, by decide, by decide, by decide, ?_⟩
  exact ⟨nofun, nofun, nofun⟩

/-- A store with room for no context (D15). -/
def fullStore : State := { loading ops with platform := { Config.Platform.default with maxContexts := some 0 } }

/-- Each error of LOAD, with the checks before it passed: palette length 4 (V-LD7), blob of 15 bytes (V-LD1), blob of 16 bytes
with a frame (V-LD2), sizes 23 and 25 (V-LD3, V-LD4), 257 entries (V-LD6a), a full store (V-LD12). -/
theorem witness_LoadErrorsInOrder :
    (4#64).toNat % 3 ≠ 0 ∧
    (loadReads (loading { ops with blobLen := 15 }) ∧ (15#64).toNat < 16) ∧
    (loadReads (loading { ops with blobLen := 16 }) ∧ 16 ≤ (16#64).toNat ∧
      (16#64).toNat < loadHeader (loading { ops with blobLen := 16 })) ∧
    (loadReads (loading ops) ∧ loadHeader (loading ops) ≤ (24#64).toNat ∧ asS64 23#64 ≠ (24#64).toNat ∧
      asS64 25#64 ≠ (24#64).toNat) ∧
    (loadReads (loading { ops with palLen := 771 }) ∧ 256 < (771#64).toNat / 3) ∧
    (loadReads fullStore ∧ (6#64).toNat / 3 ≤ 256 ∧ ¬ loadFits fullStore) := by
  refine ⟨by decide, ?_, ?_, ?_, ?_, ?_⟩
  · unfold loadReads; decide
  · unfold loadReads; decide
  · unfold loadReads; decide
  · unfold loadReads; decide
  · refine ⟨by unfold loadReads; decide, by decide, fun h => ?_⟩
    have h0 : (0 : Nat) < 0 := h.1 0 rfl
    exact absurd h0 (by decide)

theorem witness_LoadIsAllOrNothing :
    (∃ t, exec .load (loading ops) = .next t) ∧
    (∃ t, exec .load (loading { ops with palLen := 4 }) = .next t ∧ t.err ≠ 0) ∧ (0x60 ≤ 0x60 ∧ 0x90 ≤ 0x90) :=
  ⟨⟨_, rfl⟩, ⟨_, rfl, by decide⟩, by decide⟩

theorem witness_LoadIssuesTheNextHandle :
    ∃ t, exec .load { loading ops with ctxs := [videoL2] } = .next t ∧ t.err = 0 ∧ t.res.handle = 1 ∧
      getContext [videoL2] 0 = some videoL2 ∧ getContext t.ctxs (-1) = none ∧ getContext t.ctxs 2 = none :=
  ⟨_, rfl, by decide, by decide, rfl, rfl, rfl⟩

theorem witness_ClearEmptiesTheStore : (pendingOf 3 ops State.reset).hazard = false := rfl

theorem witness_ClearedHandlesAreNotFound :
    (∃ t, exec .clear (decodePending ops) = .next t) ∧
    (∃ t, step (loading ops) = .next t ∧ (loading ops).ctxs = [] ∧ t.ctxs.length = 1) ∧
    ((pendingOf 2 ops State.reset).ctxs = [] ∧ ops.destStride = 4) :=
  ⟨⟨_, rfl⟩, ⟨_, rfl, rfl, by decide⟩, by decide⟩

theorem witness_ReservedCommandIsBadCommand :
    ∀ op ∈ [0x0#4, 0x4#4, 0xF#4], (pendingOf op ops State.reset).eState = .pending ∧ (op = 0 ∨ 4 ≤ op.toNat) := by decide

theorem witness_DecodePrologueCompletes :
    ops.destStride = 4 ∧ 0 ≤ asS64 ops.handle ∧ (decodePending ops).ctxs[(asS64 ops.handle).toNat]? = some videoL2 ∧
      asS64 ops.frame = (0 : Nat) ∧ 0 < videoL2.frameCount.toNat ∧ videoL2.offsets[0]? = some 0 ∧
      videoL2.width.toNat * videoL2.height.toNat ≤ ops.destPixels.toNat := by
  refine ⟨rfl, by decide, rfl, by decide, by decide, rfl, by decide⟩

/-- Each error of the prologue, at the boundary: stride 3 (V-DP1), handles -1 (V-RG4) and VID_COUNT, frames -1 (V-DP4) and
frame_count (V-L3), capacity N - 1 (V-DP5). -/
theorem witness_DecodePrologueErrorsInOrder :
    (3#64 : Word) ≠ 4 ∧ ops.destStride = 4 ∧ asS64 0xFFFFFFFFFFFFFFFF < 0 ∧ ([videoL2].length : Int) ≤ asS64 1 ∧
      [videoL2][(asS64 0).toNat]? = some videoL2 ∧ asS64 0xFFFFFFFFFFFFFFFF < 0 ∧
      (videoL2.frameCount.toNat : Int) ≤ asS64 1 ∧ (0 ≤ asS64 0 ∧ asS64 0 < videoL2.frameCount.toNat) ∧
      (3#64).toNat < videoL2.width.toNat * videoL2.height.toNat := by
  refine ⟨by decide, rfl, by decide, by decide, rfl, by decide, by decide, by decide, by decide⟩

theorem witness_CommandFrame :
    (∃ t, exec .load (loading ops) = .next t) ∧
    (∃ t, exec .decode (decodePending ops) = .next t ∧ t.eState = .decoding) ∧
    (∃ t, exec .decode (decodePending { ops with frame := 1 }) = .next t ∧ t.eState ≠ .decoding) ∧
    (∃ t, exec .clear (pendingOf 3 ops State.reset) = .next t) ∧
    (∃ t, exec (.cmdReserved 0) (pendingOf 0 ops State.reset) = .next t) :=
  ⟨⟨_, rfl⟩, ⟨_, rfl, rfl⟩, ⟨_, rfl, by decide⟩, ⟨_, rfl⟩, ⟨_, rfl⟩⟩

theorem witness_CompletionStep :
    (decoding videoL2 4 4 2 true 3 1).eState = .decoding ∧
      (decoding videoL2 4 4 2 true 3 1).work.pixel = (decoding videoL2 4 4 2 true 3 1).work.npix := by decide

/-- V-L2's DECODE, and V-R5's (a truncated stream): the hypotheses of the statements about a whole DECODE. -/
theorem witness_DecodeRunsAsDecodeFrame :
    decodeReady (decodePending ops) videoL2 0 ∧ Memory.wf (decodePending ops).mem = true ∧
      (decodePending ops).platform.errorDest = .writtenPrefix ∧
      decodeReady { decodePending ops with ctxs := [video 2 2 2 [2, 0]] } (video 2 2 2 [2, 0]) 0 :=
  ⟨⟨rfl, rfl, rfl, by decide, rfl, by decide, by decide, by decide, by decide⟩, rfl, rfl,
   ⟨rfl, rfl, rfl, by decide, rfl, by decide, by decide, by decide, by decide⟩⟩

theorem witness_DecodeEndsWithinPixelsPlusTwo :
    decodeReady { decodePending ops with platform := { Config.Platform.default with errorDest := .anyValue } } videoL2 0 :=
  ⟨rfl, rfl, rfl, by decide, rfl, by decide, by decide, by decide, by decide⟩

/-- Two destinations, and memories that differ. -/
theorem witness_DecodeIsRepeatable :
    decodeReady (decodePending ops) videoL2 0 ∧
      decodeReady { decodePending { ops with destBase := 0x9000 } with mem := [(0x9000, 0xEE)] } videoL2 0 ∧
      Memory.wf [(0x9000, 0xEE#8)] = true :=
  ⟨⟨rfl, rfl, rfl, by decide, rfl, by decide, by decide, by decide, by decide⟩,
   ⟨rfl, rfl, rfl, by decide, rfl, by decide, by decide, by decide, by decide⟩, by decide⟩

theorem witness_DecodeWritesOnlyItsDestination :
    ∃ t, engineStep (decoding videoL2 4 0 0 false 0 0) = .next t ∧
      (decoding videoL2 4 0 0 false 0 0).eState = .decoding := ⟨_, rfl, rfl⟩

/-- A pixel step and a prologue step under both policies. -/
theorem witness_ErrorPolicyDecidesOnlyTheDestination :
    (∃ t, engineStep { decoding videoL2 4 0 0 false 0 0 with
        platform := { Config.Platform.default with errorDest := .anyValue } } = .next t ∧ t.err ≠ 6 ∧ t.err ≠ 7 ∧ t.err ≠ 8) ∧
    (∃ u, engineStep (decoding videoL2 4 0 0 false 0 0) = .next u) ∧
    (∃ t, engineStep { decodePending ops with
        platform := { Config.Platform.default with errorDest := .anyValue } } = .next t) ∧
    (∃ u, engineStep (decodePending ops) = .next u) ∧ (decodePending ops).eState = .pending :=
  ⟨⟨_, rfl, by decide, by decide, by decide⟩, ⟨_, rfl⟩, ⟨_, rfl⟩, ⟨_, rfl⟩, rfl⟩

theorem witness_RunFetchesAndWritesPixel :
    (decoding videoL2 4 2 0 true 0 0).ctxs[(decoding videoL2 4 2 0 true 0 0).work.ctxIndex]? = some videoL2 ∧
      (decoding videoL2 4 2 0 true 0 0).work.rem = 0 ∧ (2 : Byte) ≠ 0 ∧ (1 : Byte).toNat < videoL2.palCount ∧
      videoL2.pal[1]? = some ⟨100, 110, 120⟩ ∧ hmemAdmit (decoding videoL2 4 2 0 true 0 0).platform (pixelAddr ops 2) 4 .write = true ∧
      Memory.wf (decoding videoL2 4 2 0 true 0 0).mem = true :=
  ⟨rfl, rfl, by decide, by decide, rfl, by decide, rfl⟩

theorem witness_RunContinuesTheCurrentRun :
    (decoding videoL2 4 1 0 true 1 0).ctxs[(decoding videoL2 4 1 0 true 1 0).work.ctxIndex]? = some videoL2 ∧
      (decoding videoL2 4 1 0 true 1 0).work.rem ≠ 0 ∧ (0 : Byte).toNat < videoL2.palCount ∧
      videoL2.pal[0]? = some ⟨10, 20, 30⟩ ∧ hmemAdmit (decoding videoL2 4 1 0 true 1 0).platform (pixelAddr ops 1) 4 .write = true ∧
      Memory.wf (decoding videoL2 4 1 0 true 1 0).mem = true :=
  ⟨rfl, by decide, by decide, rfl, by decide, rfl⟩

theorem witness_ZeroLengthRunEndsTheCommand :
    (decoding (video 1 1 1 [0, 5]) 1 0 0 false 0 0).ctxs[0]? = some (video 1 1 1 [0, 5]) ∧
      (decoding (video 1 1 1 [0, 5]) 1 0 0 false 0 0).work.rem = 0 ∧
      (decoding (video 1 1 1 [0, 5]) 1 0 0 false 0 0).platform.errorDest = .writtenPrefix := ⟨rfl, rfl, rfl⟩

theorem witness_InvalidPaletteIndexEndsTheCommand :
    ((decoding (video 1 1 0 [1, 0]) 1 0 0 false 0 0).work.rem = 0 ∧ (1 : Byte) ≠ 0 ∧
      (video 1 1 0 [1, 0]).palCount ≤ (0 : Byte).toNat) ∧
    ((decoding (video 2 1 1 [2, 1]) 2 1 0 true 1 1).work.rem ≠ 0 ∧
      (video 2 1 1 [2, 1]).palCount ≤ (decoding (video 2 1 1 [2, 1]) 2 1 0 true 1 1).work.idx.toNat) := by decide

/-- V-R14 (an empty stream, on the first fetch), V-R5 (the end of the stream) and V-R6 (an odd byte left). -/
theorem witness_TruncatedStreamEndsTheCommand :
    (∃ s v, s = decoding v 1 0 0 false 0 0 ∧ s.eState = .decoding ∧ s.work.pixel < s.work.npix ∧
      s.ctxs[s.work.ctxIndex]? = some v ∧ s.work.rem = 0 ∧
      v.rle.length < (if s.work.started then s.work.cursor + 2 else s.work.cursor) + 2) ∧
    (∀ rle ∈ [[0x02#8, 0x00#8], [0x02#8, 0x00#8, 0x02#8]],
      ∃ s v, v.rle = rle ∧ s = decoding v 4 2 0 true 0 0 ∧ s.eState = .decoding ∧ s.work.pixel < s.work.npix ∧
        s.ctxs[s.work.ctxIndex]? = some v ∧ s.work.rem = 0 ∧
        v.rle.length < (if s.work.started then s.work.cursor + 2 else s.work.cursor) + 2) := by
  refine ⟨⟨_, video 1 1 2 [], rfl, rfl, by decide, rfl, rfl, by decide⟩, fun rle h => ?_⟩
  simp only [List.mem_cons, List.not_mem_nil, or_false] at h
  rcases h with rfl | rfl
  · exact ⟨_, video 2 2 2 [2, 0], rfl, rfl, rfl, by decide, rfl, rfl, by decide⟩
  · exact ⟨_, video 2 2 2 [2, 0, 2], rfl, rfl, rfl, by decide, rfl, rfl, by decide⟩

theorem witness_RunFrame :
    (∃ t, exec (.run 2 0) (decoding videoL2 4 0 0 false 0 0) = .next t ∧ t.eState = .decoding) ∧
    (∃ t, exec (.runZero 0) (decoding videoL2 4 0 0 false 0 0) = .next t ∧ t.eState ≠ .decoding) ∧
    (decoding videoL2 4 0 0 false 0 0).platform.errorDest = .writtenPrefix :=
  ⟨⟨_, rfl, rfl⟩, ⟨_, rfl, by decide⟩, rfl⟩

/-- The live bytes' edges: the last byte before the destination and its first byte, the last byte of the blob. -/
theorem witness_LiveBufferHazard :
    (0x7FFF#64).toNat + 2 ≤ 2 ^ 64 ∧ touchesWindow (decodePending ops).platform (0x7FFF#64).toNat 2 = false ∧
      liveDest (decodePending ops) 0x7FFF = false ∧ liveDest (decodePending ops) 0x8000 = true ∧
      liveDest (decodePending ops) 0x800F = true ∧ liveDest (decodePending ops) 0x8010 = false ∧
      touchesWindow (loading ops).platform (0x2017#64).toNat [1#8].length = false ∧
      Memory.wf (loading ops).mem = true ∧ liveSource (loading ops) 0x2017 = true ∧
      liveSource (loading ops) 0x2018 = false ∧ liveSource (loading ops) 0x1005 = true ∧
      liveSource (loading ops) 0x1006 = false := by decide

theorem witness_WaitPollsDone :
    (hostOn .wait State.reset).hostProgram = .wait :: [] ∧
      (hostOn .wait { State.reset with done := true }).done = true := by decide

theorem witness_StepRunsTheDecodedCommand :
    (State.reset.eState = .idle ∧ decode (.command 0x3) = .ok .clear ∧ ∃ t, hostAct (.regWrite 0 64 0x3) State.reset = .next t) ∧
    ((engineOn (decodePending ops)).turns = .engine :: [] ∧ (engineOn (decodePending ops)).eState = .pending) :=
  ⟨⟨rfl, by decide, ⟨_, rfl⟩⟩, rfl, rfl⟩

theorem witness_StepRunsTheDecodedPair :
    ((engineOn (decoding videoL2 4 2 0 true 0 0)).turns = .engine :: [] ∧
      (engineOn (decoding videoL2 4 2 0 true 0 0)).eState = .decoding ∧ 2 < 4 ∧
      (engineOn (decoding videoL2 4 2 0 true 0 0)).ctxs[0]? = some videoL2 ∧
      (engineOn (decoding videoL2 4 2 0 true 0 0)).work.rem = 0 ∧
      videoL2.rle[2]? = some 2 ∧ videoL2.rle[3]? = some 1 ∧ decode (.stream [2, 1]) = .ok (.run 2 1)) ∧
    (engineOn (decoding videoL2 4 1 0 true 1 0)).work.rem ≠ 0 :=
  ⟨⟨rfl, rfl, by decide, rfl, rfl, rfl, rfl, by decide⟩, by decide⟩

/-- The state `withFetchWord` makes of a zero-length pair: a DECODING state that meets the invariant. -/
def zeroPairFetched : State := placePair [0, 5] State.reset

theorem zeroPairFetched_inv : Inv zeroPairFetched where
  mem_wf := rfl
  contexts := by
    intro c hc
    obtain rfl : c = onePixelContext [0, 5] := List.mem_singleton.1 hc
    exact ⟨rfl, List.length_replicate, by decide, fun k _ => by
      simp only [onePixelContext, List.getD_eq_getElem?_getD, List.getElem?_replicate]
      split <;> rfl, by decide⟩
  done_idle := by decide
  err_done := by decide
  err_code := by decide
  err_info := by decide
  decoding := by
    intro _
    refine ⟨rfl, onePixelContext [0, 5], rfl, ?_⟩
    exact ⟨by decide, by decide, by decide, by decide, by decide, by decide, by decide, by decide, by decide, by decide⟩

/-- A pending reserved command. -/
def reservedPending : State := pendingOf 0 ops State.reset

theorem reservedPending_inv : Inv reservedPending where
  mem_wf := rfl
  contexts := by simp [reservedPending, pendingOf, State.reset]
  done_idle := by decide
  err_done := by decide
  err_code := by decide
  err_info := by decide
  decoding := nofun

/-- The reset state with another Host program, other turns and another platform has the invariant. -/
theorem idle_inv (p : List HostAction) (q : List Agent) (f : Config.Platform) :
    Inv { State.reset with hostProgram := p, turns := q, platform := f } where
  mem_wf := rfl
  contexts := by simp [State.reset]
  done_idle := nofun
  err_done := fun _ => rfl
  err_code := by show (0 : BitVec 4).toNat ≤ 11; decide
  err_info := fun _ _ _ => ⟨rfl, rfl⟩
  decoding := nofun

/-- An error that ends a pending command and one that ends a DECODE in its pixel loop. -/
theorem witness_ErrorsArePrecise :
    (Inv reservedPending ∧ reservedPending.eState ≠ .idle ∧ reservedPending.platform.errorDest = .writtenPrefix ∧
      ∃ t, engineStep reservedPending = .next t ∧ t.err ≠ 0) ∧
    (Inv zeroPairFetched ∧ zeroPairFetched.eState ≠ .idle ∧ zeroPairFetched.platform.errorDest = .writtenPrefix ∧
      ∃ t, engineStep zeroPairFetched = .next t ∧ t.err ≠ 0) :=
  ⟨⟨reservedPending_inv, by decide, rfl, _, rfl, by decide⟩, zeroPairFetched_inv, by decide, rfl, _, rfl, by decide⟩

theorem witness_EveryStepKeepsTheInvariant : Inv zeroPairFetched ∧ ∃ t, step zeroPairFetched = .next t :=
  ⟨zeroPairFetched_inv, _, rfl⟩

/-- The Host reads across the last byte of host memory, with the window elsewhere. -/
def readPastMemory : State :=
  hostOn (.memRead 0xFFFFFFFFFFFFFFFF 2)
    { State.reset with platform := { Config.Platform.default with regBase := 0x100 } }

theorem readPastMemory_past : pastMemory readPastMemory (.memRead 0xFFFFFFFFFFFFFFFF 2) := by
  refine ⟨fun ⟨x, h1, _, _, h2⟩ => ?_, by decide⟩
  have h1 : (2 ^ 64 - 1 : Nat) ≤ x := h1
  have h2 : x < 0x100 + 0x100 := h2
  omega

/-- The byte before the window and the window's first byte, touched by one access. -/
theorem reset_meetsWindow : meetsWindow State.reset (0xFFFFFFFFFFFFFEFF#64).toNat 2 :=
  ⟨0xFFFFFFFFFFFFFF00, by decide, by decide, by decide, by decide⟩

theorem witness_HostMemoryAccessesThatStop :
    meetsWindow State.reset (0xFFFFFFFFFFFFFEFF#64).toNat [1#8, 2#8].length ∧
      ¬ meetsWindow readPastMemory (0xFFFFFFFFFFFFFFFF#64).toNat [1#8, 2#8].length ∧
      2 ^ 64 < (0xFFFFFFFFFFFFFFFF#64).toNat + [1#8, 2#8].length :=
  ⟨reset_meetsWindow, readPastMemory_past.1, by decide⟩

/-- A state with the invariant that steps, and for each stop a state with the invariant that shows it. -/
theorem witness_OnlyHostAccessesStopTheMachine :
    Inv zeroPairFetched ∧
    (Inv readPastMemory ∧ step readPastMemory = .fault .hostAddress ∧ hostMoves readPastMemory) ∧
    (Inv (hostOn (.regRead 4 64) State.reset) ∧
      step (hostOn (.regRead 4 64) State.reset) = .refused .registerAccess ∧
      refusedAccess State.reset (.regRead 4 64)) :=
  ⟨zeroPairFetched_inv, ⟨idle_inv _ _ _, rfl, .inl ⟨[], rfl⟩⟩, idle_inv _ _ _, rfl,
   show ¬(64 = 64 ∧ 4 % 8 = 0 ∧ 4 < 0x100) by decide⟩

/-- A Host's turn with an action and without one, an Engine's turn, and no turn named with the Engine free, idle and refused. -/
theorem witness_StepTakesTheTurnOfOneAgent :
    ((hostOn .wait State.reset).turns = .host :: [] ∧ (hostOn .wait State.reset).hostProgram = .wait :: []) ∧
    ({ State.reset with turns := [.host] }.turns = .host :: [] ∧ State.reset.hostProgram = []) ∧
    (engineOn (decodePending ops)).turns = .engine :: [] ∧
    ((decodePending ops).turns = [] ∧ (decodePending ops).eState ≠ .idle ∧
      engineStep (decodePending ops) ≠ .fault .hostMemoryRefused) ∧
    (State.reset.turns = [] ∧ State.reset.eState = .idle ∧
      { State.reset with hostProgram := [.wait] }.hostProgram = .wait :: []) ∧
    engineStep { loading ops with platform := refusing } = .fault .hostMemoryRefused :=
  ⟨⟨rfl, rfl⟩, ⟨rfl, rfl⟩, rfl, ⟨rfl, by decide, nofun⟩, ⟨rfl, rfl, rfl⟩, rfl⟩

theorem witness_PlatformIsFixed : ∃ t, step (loading ops) = .next t := ⟨_, rfl⟩

end Sys2Proof.Tests
end

section
/-! Proofs of the statements of 00_scope.md and what they need: an idle block's host-memory accesses, what the steps of either
agent leave of the platform, and the agent whose step a turn is. -/

namespace Sys2Proof.Machine

/-! ### Host memory while the block is idle -/

/-- Reading back a byte sequence just written (R11). -/
theorem Memory.read_write_same {m : Memory} {a : Nat} {bs : List Byte} (h : Memory.wf m = true)
    (ha : a + bs.length ≤ Config.addrSpace) : Memory.read (Memory.write m a bs) a bs.length = bs := by
  refine List.ext_getElem (Memory.read_length ..) fun k hk hk' => ?_
  have hbyte := Memory.get_write_same h hk' ha
  simpa [Memory.read, List.getD_eq_getElem?_getD, hk'] using hbyte

/-- An idle block runs no DECODE, so no byte is a live destination byte (R251). -/
theorem liveDest_idle {s : State} (h : s.eState = .idle) (x : Nat) : liveDest s x = false := by
  simp [liveDest, busy, h]

/-- An idle block runs no LOAD, so no byte is a live source byte (R251). -/
theorem liveSource_idle {s : State} (h : s.eState = .idle) (x : Nat) : liveSource s x = false := by
  simp [liveSource, busy, h]

/-- A Host read while the block is idle returns the bytes of host memory and changes nothing else (R50). -/
theorem hostMemRead_idle {a n : Nat} {s : State} (h : s.eState = .idle) (hw : touchesWindow s.platform a n = false)
    (hb : a + n ≤ Config.addrSpace) :
    hostMemRead a n s = .next { s with lastRead := .bytes (Memory.read s.mem a n) } := by
  have hhaz : readHazard s a n = false := by simp [readHazard, liveDest_idle h]
  have hbytes : (List.range n).map (hostByte s a) = Memory.read s.mem a n := by
    simp [Memory.read, hostByte, liveDest_idle h]
  simp [hostMemRead_eq hw hb, hhaz, hbytes]

/-- A Host write while the block is idle stores the bytes and changes nothing else (R50). -/
theorem hostMemWrite_idle {a : Nat} {bs : List Byte} {s : State} (h : s.eState = .idle)
    (hw : touchesWindow s.platform a bs.length = false) (hb : a + bs.length ≤ Config.addrSpace) :
    hostMemWrite a bs s = .next { s with mem := Memory.write s.mem a bs } := by
  have hhaz : writeHazard s a bs.length = false := by simp [writeHazard, liveDest_idle h, liveSource_idle h]
  simp [hostMemWrite_eq hw hb, hhaz]

/-! ### The platform -/

/-- No register write of the Host, an accepted or a refused command among them, changes the platform. -/
@[simp] theorem writeReg_platform (off : Nat) (w : Word) (s : State) : (writeReg off w s).platform = s.platform := by
  unfold writeReg
  split
  · by_cases h : s.eState = .idle
    · simp [accept_idle h]
    · simp [accept_busy h]
  · rfl

/-- A Host read of host memory leaves the platform alone. -/
theorem hostMemRead_platform {a n : Nat} {s t : State} (h : hostMemRead a n s = .next t) :
    t.platform = s.platform := by
  unfold hostMemRead at h
  split at h
  · cases h
  · split at h <;> cases h
    rfl

/-- A Host write of host memory leaves the platform alone. -/
theorem hostMemWrite_platform {a : Nat} {bs : List Byte} {s t : State} (h : hostMemWrite a bs s = .next t) :
    t.platform = s.platform := by
  unfold hostMemWrite at h
  split at h
  · cases h
  · split at h <;> cases h
    rfl

/-- No Host action changes the platform, a reset included (R240). -/
theorem hostAct_platform {a : HostAction} {s t : State} (h : hostAct a s = .next t) : t.platform = s.platform := by
  cases a with
  | regRead off width =>
    simp only [hostAct] at h
    split at h <;> cases h
    rfl
  | regWrite off width w =>
    simp only [hostAct] at h
    split at h <;> cases h
    exact writeReg_platform off w s
  | memRead addr n => exact hostMemRead_platform h
  | memWrite addr bytes => exact hostMemWrite_platform h
  | wait => cases h; rfl
  | reset => cases h; rfl

/-- No Host step changes the platform. -/
theorem hostStep_platform {s t : State} (h : hostStep s = .next t) : t.platform = s.platform := by
  obtain ⟨-, h1⟩ | ⟨a, rest, -, h1⟩ := hostStep_cases s <;> rw [h1] at h
  · rw [next_inj.1 h]
  · exact (hostAct_platform h :)

/-- No Engine step changes the platform, whichever command it runs and however that ends. -/
theorem engineStep_platform {s t : State} (h : engineStep s = .next t) : t.platform = s.platform := by
  cases hs : s.eState with
  | idle =>
    rw [engineStep_idle hs] at h
    rw [next_inj.1 h]
  | pending =>
    obtain ⟨e, -, -, -, rfl⟩ | ⟨-, c, rfl⟩ | ⟨-, v, f, -, rfl⟩ | ⟨-, rfl⟩ := engineStep_pending_next hs h
    · exact raise_platform ..
    · exact loadContext_platform ..
    · rfl
    · exact complete_platform _
  | decoding =>
    obtain ⟨-, rfl⟩ | ⟨-, e, -, rfl⟩ | ⟨-, v, w, bs, -, -, -, -, -, -, rfl⟩ := engineStep_decoding_next hs h
    · exact complete_platform _
    · exact raisePixel_platform ..
    · rfl

/-- The Engine's turn leaves the platform alone, also when it passes. -/
theorem engineTurn_platform {s t : State} (h : engineTurn s = .next t) : t.platform = s.platform := by
  obtain ⟨-, h1⟩ | ⟨-, h1⟩ := engineTurn_cases s <;> rw [h1] at h
  · rw [next_inj.1 h]
  · exact engineStep_platform h

/-! ### Which agent a step is of -/

/-- With the Engine's turn named the step is the Engine's turn (R60). -/
theorem step_engine {s : State} {rest : List Agent} (h : s.turns = .engine :: rest) :
    step s = engineTurn { s with turns := rest } := by
  simp [step, turnStep, h]

/-- With the Host's turn named the step is the Host's (R60). -/
theorem step_host {s : State} {rest : List Agent} (h : s.turns = .host :: rest) :
    step s = hostStep { s with turns := rest } := by
  simp [step, turnStep, h]

/-- With no turn named a busy Engine that host memory does not refuse moves (R256). -/
theorem step_free_engine {s : State} (h : s.turns = []) (hbusy : s.eState ≠ .idle)
    (hfree : engineStep s ≠ .fault .hostMemoryRefused) : step s = engineStep s := by
  have hstuck : engineStuck s = false := Bool.eq_false_iff.2 (mt (engineStuck_iff s).1 hfree)
  simp [step, turnStep, h, hstuck, busy, hbusy]

/-- With no turn named the Host moves when the Engine is idle or refused. -/
theorem step_free_host {s : State} (h : s.turns = [])
    (hno : s.eState = .idle ∨ engineStep s = .fault .hostMemoryRefused) : step s = hostStep s := by
  obtain hidle | hrefused := hno
  · simp [step, turnStep, h, busy, hidle]
  · simp [step, turnStep, h, (engineStuck_iff s).2 hrefused]

/-- A Host with an action left takes it. -/
theorem hostStep_cons {s : State} {a : HostAction} {p : List HostAction} (h : s.hostProgram = a :: p) :
    hostStep s = hostAct a { s with hostProgram := p } := by
  simp [hostStep, h]

/-- A Host with no action left does nothing. -/
theorem hostStep_nil {s : State} (h : s.hostProgram = []) : hostStep s = .next s := by
  simp [hostStep, h]

/-- The Engine's turn is the Engine's step, but for a refused one, which passes (R53, R218). -/
theorem engineTurn_eq_turnAnswer (s : State) : engineTurn s = Claims.turnAnswer s (engineStep s) := by
  obtain ⟨h, ht⟩ | ⟨h, ht⟩ := engineTurn_cases s
  · rw [ht, h]; rfl
  · rw [ht]
    cases hs : engineStep s with
    | next t => rfl
    | refused r => rfl
    | fault f =>
      cases f with
      | hostMemoryRefused => exact absurd hs h
      | noRule => rfl
      | hostAddress => rfl

end Sys2Proof.Machine

namespace Sys2Proof.Proofs.Scope

open Sys2Proof.Machine Sys2Proof.Claims

/-- Settles O13: an idle block's write stores the bytes, and reading them back gives the sequence written. -/
theorem hostMemoryReadBack : Obligations.HostMemoryReadBack := by
  intro s a bs hwf hidle hb hw
  refine ⟨_, _, hostMemWrite_idle hidle hw hb, rfl, Memory.wf_write hwf hb, fun x hx => Memory.get_write_other hx,
    hostMemRead_idle hidle hw hb, ?_, rfl⟩
  exact congrArg HostValue.bytes (Memory.read_write_same hwf hb)

/-- Settles O51, by the agent whose step it is. -/
theorem platformIsFixed : Obligations.PlatformIsFixed := by
  intro s t h
  obtain ⟨rest, -, h1⟩ | ⟨rest, -, h1⟩ | ⟨-, -, -, h1⟩ | ⟨-, -, h1⟩ := step_cases s <;> rw [h1] at h
  · exact (engineTurn_platform h :)
  · exact (hostStep_platform h :)
  · exact engineStep_platform h
  · exact hostStep_platform h

/-- Settles O52: one clause for each agent's named turn, and two for the choice when no turn is named. -/
theorem stepTakesTheTurnOfOneAgent : Obligations.StepTakesTheTurnOfOneAgent := by
  refine ⟨fun s r a p ht hp => ?_, fun s r ht hp => ?_, fun s r ht => ?_, fun s ht hbusy hfree => ?_,
    fun s ht hno => ⟨fun a p hp => ?_, fun hp => ?_⟩⟩
  · rw [step_host ht]; exact hostStep_cons hp
  · rw [step_host ht]; exact hostStep_nil hp
  · rw [step_engine ht]; exact engineTurn_eq_turnAnswer _
  · exact step_free_engine ht hbusy hfree
  · rw [step_free_host ht hno]; exact hostStep_cons hp
  · rw [step_free_host ht hno]; exact hostStep_nil hp

end Sys2Proof.Proofs.Scope
end

section
/-! Proofs of the statements of 10_state.md and what they need: the encodings, the register window and STATUS, what a Host action
and an Engine step do and what they read, the contexts a LOAD makes, and the invariant under every update of the state. -/

namespace Sys2Proof.Machine

open Sys2Proof.Claims Sys2Proof.Safety

/-! ### The encodings -/

/-- What the decoder makes of an OP is well formed (R77). -/
theorem decodeOp_wf (op : Op) : (decodeOp op).wf = true := by
  revert op
  decide

/-- What the decoder makes of a run pair is well formed (R75, R78 item 3). -/
theorem decodePair_wf (l p : Byte) : (decodePair l p).wf = true := by
  unfold decodePair
  split
  · rfl
  · simpa [Instr.wf]

/-- The encoder keeps the OP of a command (R24, R77). -/
theorem encode_decodeOp (op : Op) : encode (decodeOp op) = .command (BitVec.setWidth 64 op) := by
  revert op
  decide

/-- The encoder gives back the two bytes of a run pair (R75). -/
theorem encode_decodePair (l p : Byte) : encode (decodePair l p) = .stream [l, p] := by
  unfold decodePair
  split
  · next hl => rw [hl]; rfl
  · rfl

/-- The OP field, as a number (R24). -/
theorem opField_toNat (w : Word) : (opField w).toNat = w.toNat % 16 := by
  simp [opField]

/-- The OP field is bits 3:0 of the word and depends on no other bit (R24, R78 item 2). -/
theorem opField_congr {w w' : Word} (h : ∀ k, k < 4 → w.getLsbD k = w'.getLsbD k) : opField w = opField w' := by
  unfold opField
  ext k hk
  simpa using h k hk

/-- Every instruction the decoder reads is well formed. -/
theorem decode_wf {c : Code} {i : Instr} (h : decode c = .ok i) : i.wf = true := by
  match c, h with
  | .command w, h => cases h; exact decodeOp_wf _
  | .stream (l :: p :: _), h => cases h; exact decodePair_wf l p
  | .stream [], h => cases h
  | .stream [_], h => cases h

/-- Decoding the encoding of a well-formed instruction gives it back. -/
theorem decode_encode {i : Instr} (h : i.wf = true) : decode (encode i) = .ok i := by
  cases i with
  | load => exact Laws.RoundTrip.load h
  | decode => exact Laws.RoundTrip.decode h
  | clear => exact Laws.RoundTrip.clear h
  | cmdReserved op => exact Laws.RoundTrip.cmdReserved op h
  | run l p => exact Laws.RoundTrip.run l p h
  | runZero p => exact Laws.RoundTrip.runZero p h

/-! ### The register window -/

/-- An access the window admits (R55). -/
theorem regAccessOk_iff {off width : Nat} :
    regAccessOk off width = true ↔ width = 64 ∧ off % 8 = 0 ∧ off < 0x100 := by
  simp [regAccessOk, and_assoc]

/-- The registers other than the ARG registers do not show them (R21). -/
theorem readReg_args {off : Nat} (h : off ∉ argOffsets) (s : State) (a : Operands) :
    readReg { s with args := a } off = readReg s off := by
  simp only [argOffsets, List.mem_cons, List.not_mem_nil, or_false, not_or] at h
  simp only [readReg, h, if_false, statusWord, vidCount, busy]

/-- The ARG register at an offset of the window (R21). -/
def argAt (a : Operands) (off : Nat) : Word := readReg { State.reset with args := a } off

/-- At the offset of an ARG register the Host reads that register, whatever the rest of the state holds (R21). -/
theorem readReg_arg {off : Nat} (h : off ∈ argOffsets) (s : State) : readReg s off = argAt s.args off := by
  simp only [argOffsets, List.mem_cons, List.not_mem_nil, or_false] at h
  rcases h with rfl | rfl | rfl | rfl | rfl | rfl | rfl | rfl | rfl | rfl <;> rfl

/-- A write to one ARG register, seen from each of the ten (R22). -/
theorem argAt_writeArg {off off' : Nat} (h : off ∈ argOffsets) (h' : off' ∈ argOffsets) (a : Operands) (w : Word) :
    argAt (writeArg a off w) off' = if off' = off then w else argAt a off' := by
  simp only [argOffsets, List.mem_cons, List.not_mem_nil, or_false] at h h'
  rcases h with rfl | rfl | rfl | rfl | rfl | rfl | rfl | rfl | rfl | rfl <;>
    rcases h' with rfl | rfl | rfl | rfl | rfl | rfl | rfl | rfl | rfl | rfl <;> rfl

/-- A write to an ARG register is read back there and changes no other register (R22). -/
theorem readReg_writeArg {off : Nat} (h : off ∈ argOffsets) (off' : Nat) (s : State) (w : Word) :
    readReg { s with args := writeArg s.args off w } off' = if off' = off then w else readReg s off' := by
  by_cases h' : off' ∈ argOffsets
  · rw [readReg_arg h', readReg_arg h', argAt_writeArg h h']
  · rw [readReg_args h', if_neg fun e => h' (by rwa [e])]

/-- A write to an offset of no ARG register changes none (R22). -/
theorem writeArg_of_notMem {off : Nat} (h : off ∉ argOffsets) (a : Operands) (w : Word) : writeArg a off w = a := by
  simp only [argOffsets, List.mem_cons, List.not_mem_nil, or_false, not_or] at h
  simp [writeArg, h]

/-- CMD and the reserved offsets read 0 (R22). -/
theorem readReg_reserved {off : Nat} (h : off = 0 ∨ 0xA8 ≤ off) (s : State) : readReg s off = 0 := by
  simp (disch := omega) only [readReg, if_neg]

/-- Every register reads 0 after reset (R42). -/
theorem readReg_reset (off : Nat) : readReg State.reset off = 0 := by
  have hstatus : statusWord State.reset = 0 := by decide
  have hcount : vidCount State.reset = 0 := rfl
  simp only [readReg, hstatus, hcount]
  simp only [State.reset, Operands.zero, Results.zero, ite_self]

/-! ### A write to CMD -/

@[simp] theorem accept_args (w : Word) (s : State) : (accept w s).args = s.args := by
  unfold accept; split <;> rfl
@[simp] theorem accept_res (w : Word) (s : State) : (accept w s).res = s.res := by
  unfold accept; split <;> rfl
@[simp] theorem accept_ctxs (w : Word) (s : State) : (accept w s).ctxs = s.ctxs := by
  unfold accept; split <;> rfl
@[simp] theorem accept_hostProgram (w : Word) (s : State) : (accept w s).hostProgram = s.hostProgram := by
  unfold accept; split <;> rfl

/-- A CMD write sets HAZARD exactly when a command runs (R25, R250). -/
theorem accept_hazard (w : Word) (s : State) : (accept w s).hazard = (s.hazard || busy s) := by
  unfold accept busy
  split <;> simp [*]

/-- Of the word written to CMD only the OP field matters (R24). -/
theorem accept_congr {w w' : Word} (h : opField w = opField w') (s : State) : accept w s = accept w' s := by
  simp only [accept, latch, h]

/-! ### The STATUS word -/

/-- A bit of the STATUS word, by the fields it is made of (R26). -/
theorem statusWord_getLsbD (s : State) (k : Nat) :
    (statusWord s).getLsbD k =
      (decide (k = 0) && busy s || decide (k = 1) && s.done || decide (8 ≤ k) && s.err.getLsbD (k - 8) ||
        decide (k = 16) && s.hazard) := by
  simp only [statusWord, BitVec.getLsbD_append, BitVec.getLsbD_ofBool, BitVec.getLsbD_zero]
  grind

/-! ### What a Host action does -/

/-- An access meets the register window when it touches it (R58). -/
theorem touchesWindow_eq_true {s : State} {a n : Nat} (h : meetsWindow s a n) : touchesWindow s.platform a n = true :=
  touchesWindow_iff.2 h

/-- An access that does not meet the register window does not touch it (R58). -/
theorem touchesWindow_eq_false {s : State} {a n : Nat} (h : ¬ meetsWindow s a n) :
    touchesWindow s.platform a n = false :=
  Bool.eq_false_iff.2 (mt touchesWindow_iff.1 h)

/-- A Host read of host memory that meets the register window is refused (R55). -/
theorem hostMemRead_window {a n : Nat} {s : State} (h : meetsWindow s a n) :
    hostMemRead a n s = .refused .registerAccess :=
  if_pos (touchesWindow_eq_true h)

/-- A Host write of host memory that meets the register window is refused (R55). -/
theorem hostMemWrite_window {a : Nat} {bs : List Byte} {s : State} (h : meetsWindow s a bs.length) :
    hostMemWrite a bs s = .refused .registerAccess :=
  if_pos (touchesWindow_eq_true h)

/-- A Host read past the last byte of host memory stops (R50). -/
theorem hostMemRead_past {a n : Nat} {s : State} (h : ¬ meetsWindow s a n) (hb : 2 ^ 64 < a + n) :
    hostMemRead a n s = .fault .hostAddress := by
  rw [hostMemRead, touchesWindow_eq_false h, if_neg (by simp), if_pos hb]

/-- A Host write past the last byte of host memory stops (R50). -/
theorem hostMemWrite_past {a : Nat} {bs : List Byte} {s : State} (h : ¬ meetsWindow s a bs.length)
    (hb : 2 ^ 64 < a + bs.length) : hostMemWrite a bs s = .fault .hostAddress := by
  rw [hostMemWrite, touchesWindow_eq_false h, if_neg (by simp), if_pos hb]

/-- Everything a Host action that answers a next state did (R22, R50, R81, R240): a read, a command or another register
write, an access to host memory, a poll, or a reset. -/
theorem hostAct_next {a : HostAction} {s t : State} (h : hostAct a s = .next t) :
    (∃ off width, a = .regRead off width ∧ t = { s with lastRead := .word (readReg s off) }) ∨
    (∃ w, a = .regWrite 0 64 w ∧ t = accept w s) ∨
    (∃ off width w, a = .regWrite off width w ∧ off ≠ 0 ∧ t = { s with args := writeArg s.args off w }) ∨
    (∃ addr n v k, a = .memRead addr n ∧
      t = { s with lastRead := v, hazard := s.hazard || readHazard s addr.toNat n, freeNext := k }) ∨
    (∃ addr bs, a = .memWrite addr bs ∧ addr.toNat + bs.length ≤ Config.addrSpace ∧
      t = { s with mem := Memory.write s.mem addr.toNat bs,
                   hazard := s.hazard || writeHazard s addr.toNat bs.length }) ∨
    (∃ v p, a = .wait ∧ t = { s with lastRead := v, hostProgram := p }) ∨
    (a = .reset ∧ t = blockReset s) := by
  cases a with
  | regRead off width =>
    simp only [hostAct] at h
    split at h <;> cases h
    exact .inl ⟨off, width, rfl, rfl⟩
  | regWrite off width w =>
    simp only [hostAct] at h
    split at h <;> cases h
    next hok =>
      obtain ⟨rfl, -, -⟩ := regAccessOk_iff.1 hok
      by_cases h0 : off = 0
      · subst h0
        exact .inr (.inl ⟨w, rfl, rfl⟩)
      · exact .inr (.inr (.inl ⟨off, 64, w, rfl, h0, if_neg h0⟩))
  | memRead addr n =>
    simp only [hostAct, hostMemRead] at h
    split at h
    · cases h
    · split at h <;> cases h
      exact .inr (.inr (.inr (.inl ⟨addr, n, _, _, rfl, rfl⟩)))
  | memWrite addr bs =>
    simp only [hostAct, hostMemWrite] at h
    split at h
    · cases h
    · split at h <;> cases h
      next hb => exact .inr (.inr (.inr (.inr (.inl ⟨addr, bs, rfl, by omega, rfl⟩))))
  | wait =>
    cases h
    exact .inr (.inr (.inr (.inr (.inr (.inl ⟨_, _, rfl, rfl⟩)))))
  | reset =>
    cases h
    exact .inr (.inr (.inr (.inr (.inr (.inr ⟨rfl, rfl⟩)))))

/-- The two ways a Host action can stop (R50, R55): past the last byte of host memory, or a refused access to the register
window. -/
theorem hostAct_answers (a : HostAction) (s : State) :
    (∃ t, hostAct a s = .next t) ∨ (hostAct a s = .fault .hostAddress ∧ pastMemory s a) ∨
      (hostAct a s = .refused .registerAccess ∧ refusedAccess s a) := by
  cases a with
  | regRead off width =>
    by_cases h : regAccessOk off width = true
    · exact .inl ⟨_, if_pos h⟩
    · exact .inr (.inr ⟨if_neg h, mt regAccessOk_iff.2 h⟩)
  | regWrite off width w =>
    by_cases h : regAccessOk off width = true
    · exact .inl ⟨_, if_pos h⟩
    · exact .inr (.inr ⟨if_neg h, mt regAccessOk_iff.2 h⟩)
  | memRead addr n =>
    by_cases hw : meetsWindow s addr.toNat n
    · exact .inr (.inr ⟨hostMemRead_window hw, hw⟩)
    · by_cases hb : 2 ^ 64 < addr.toNat + n
      · exact .inr (.inl ⟨hostMemRead_past hw hb, hw, hb⟩)
      · exact .inl ⟨_, hostMemRead_eq (touchesWindow_eq_false hw) (Nat.not_lt.1 hb)⟩
  | memWrite addr bs =>
    by_cases hw : meetsWindow s addr.toNat bs.length
    · exact .inr (.inr ⟨hostMemWrite_window hw, hw⟩)
    · by_cases hb : 2 ^ 64 < addr.toNat + bs.length
      · exact .inr (.inl ⟨hostMemWrite_past hw hb, hw, hb⟩)
      · exact .inl ⟨_, hostMemWrite_eq (touchesWindow_eq_false hw) (Nat.not_lt.1 hb)⟩
  | wait => exact .inl ⟨_, rfl⟩
  | reset => exact .inl ⟨_, rfl⟩

/-- A Host action that is no reset keeps the store and the RES registers, and never clears HAZARD (R27, R37, R38). -/
theorem hostAct_keeps {a : HostAction} {s t : State} (h : hostAct a s = .next t) :
    (a = .reset ∧ t = blockReset s) ∨ (t.ctxs = s.ctxs ∧ t.res = s.res ∧ (s.hazard = true → t.hazard = true)) := by
  obtain ⟨off, width, -, rfl⟩ | ⟨w, -, rfl⟩ | ⟨off, width, w, -, -, rfl⟩ | ⟨addr, n, v, k, -, rfl⟩ |
    ⟨addr, bs, -, -, rfl⟩ | ⟨v, p, -, rfl⟩ | hreset := hostAct_next h
  · exact .inr ⟨rfl, rfl, id⟩
  · exact .inr ⟨accept_ctxs w s, accept_res w s, fun hz => by simp [accept_hazard, hz]⟩
  · exact .inr ⟨rfl, rfl, id⟩
  · exact .inr ⟨rfl, rfl, fun hz => by simp [hz]⟩
  · exact .inr ⟨rfl, rfl, fun hz => by simp [hz]⟩
  · exact .inr ⟨rfl, rfl, id⟩
  · exact .inl hreset

/-- The hazard of a Host read is a live destination byte among those read (R251). -/
theorem readHazard_iff {s : State} {a n : Nat} :
    readHazard s a n = true ↔ ∃ k, k < n ∧ liveDest s (a + k) = true := by
  simp [readHazard]

/-- The hazard of a Host write is a live byte among those written (R251). -/
theorem writeHazard_iff {s : State} {a n : Nat} :
    writeHazard s a n = true ↔ ∃ k, k < n ∧ (liveDest s (a + k) = true ∨ liveSource s (a + k) = true) := by
  simp [writeHazard]

/-- A live destination byte stands in a running command only (R251). -/
theorem liveDest_busy {s : State} {x : Nat} (h : liveDest s x = true) : s.eState ≠ .idle := fun hidle => by
  simp [liveDest_idle hidle] at h

/-- A live source byte stands in a running command only (R251). -/
theorem liveSource_busy {s : State} {x : Nat} (h : liveSource s x = true) : s.eState ≠ .idle := fun hidle => by
  simp [liveSource_idle hidle] at h

/-- The Host actions that can set HAZARD (R250, R251): a CMD write, or an access to a live byte, while a command runs. -/
def setsHazard (s : State) (a : HostAction) : Prop :=
  s.eState ≠ .idle ∧
    ((∃ w, a = .regWrite 0 64 w) ∨
     (∃ addr n, a = .memRead addr n ∧ ∃ k, k < n ∧ liveDest s (addr.toNat + k) = true) ∨
     (∃ addr bs, a = .memWrite addr bs ∧
        ∃ k, k < bs.length ∧ (liveDest s (addr.toNat + k) = true ∨ liveSource s (addr.toNat + k) = true)))

/-- A Host action that sets HAZARD is one of those R250 and R251 name, and takes its place in the Host's program. -/
theorem hostAct_hazard {a : HostAction} {s t : State} (h : hostAct a s = .next t) (hs : s.hazard = false)
    (ht : t.hazard = true) : setsHazard s a ∧ t.hostProgram = s.hostProgram := by
  obtain ⟨off, width, -, rfl⟩ | ⟨w, rfl, rfl⟩ | ⟨off, width, w, -, -, rfl⟩ | ⟨addr, n, v, k, rfl, rfl⟩ |
    ⟨addr, bs, rfl, -, rfl⟩ | ⟨v, p, -, rfl⟩ | ⟨-, rfl⟩ := hostAct_next h
  · simp [hs] at ht
  · refine ⟨⟨?_, .inl ⟨w, rfl⟩⟩, accept_hostProgram w s⟩
    simpa [accept_hazard, hs, busy] using ht
  · simp [hs] at ht
  · obtain ⟨k, hk, hlive⟩ := readHazard_iff.1 (by simpa [hs] using ht)
    exact ⟨⟨liveDest_busy hlive, .inr (.inl ⟨addr, n, rfl, k, hk, hlive⟩)⟩, rfl⟩
  · obtain ⟨k, hk, hlive⟩ := writeHazard_iff.1 (by simpa [hs] using ht)
    exact ⟨⟨hlive.elim liveDest_busy liveSource_busy, .inr (.inr ⟨addr, bs, rfl, k, hk, hlive⟩)⟩, rfl⟩
  · simp [hs] at ht
  · simp at ht

/-- The Host's reset leaves the state R240 gives. -/
theorem resets_blockReset {s : State} {p : List HostAction} (hp : s.hostProgram = .reset :: p) (q : List Agent) :
    resets s (blockReset { s with turns := q, hostProgram := p }) :=
  ⟨hp, rfl, rfl, rfl, rfl, rfl⟩

/-! ### What an Engine step does -/

/-- No Engine step writes the Host's side of the state. -/
theorem engineStep_hostSide {s t : State} (h : engineStep s = .next t) : hostSideSame s t := by
  cases hs : s.eState with
  | idle =>
    rw [engineStep_idle hs] at h
    obtain rfl := next_inj.1 h
    simp [hostSideSame]
  | pending =>
    obtain ⟨e, -, -, -, rfl⟩ | ⟨-, c, rfl⟩ | ⟨-, v, f, -, rfl⟩ | ⟨-, rfl⟩ := engineStep_pending_next hs h <;>
      simp [hostSideSame]
  | decoding =>
    obtain ⟨-, rfl⟩ | ⟨-, e, -, rfl⟩ | ⟨-, v, w, bs, -, -, -, -, -, -, rfl⟩ := engineStep_decoding_next hs h <;>
      simp [hostSideSame]

/-- An Engine step that changes the store or the RES registers is a LOAD that succeeds or a CLEAR (R27, R37). -/
theorem engineStep_store {s t : State} (h : engineStep s = .next t) :
    (t.ctxs = s.ctxs ∧ t.res = s.res) ∨
    (s.eState = .pending ∧ s.eOp = 1 ∧ ∃ c, t = loadContext c s) ∨
    (s.eState = .pending ∧ s.eOp = 3 ∧ t = complete { s with ctxs := [] }) := by
  cases hs : s.eState with
  | idle =>
    rw [engineStep_idle hs] at h
    exact .inl (next_inj.1 h ▸ ⟨rfl, rfl⟩)
  | pending =>
    obtain ⟨e, -, -, -, rfl⟩ | ⟨ho, hc⟩ | ⟨-, v, f, -, rfl⟩ | ⟨ho, ht⟩ := engineStep_pending_next hs h
    · exact .inl (by simp)
    · exact .inr (.inl ⟨rfl, ho, hc⟩)
    · exact .inl ⟨rfl, rfl⟩
    · exact .inr (.inr ⟨rfl, ho, ht⟩)
  | decoding =>
    obtain ⟨-, rfl⟩ | ⟨-, e, -, rfl⟩ | ⟨-, v, w, bs, -, -, -, -, -, -, rfl⟩ := engineStep_decoding_next hs h <;>
      simp

/-! ### What a step of the machine does -/

/-- A step of the machine takes a turn off the list, and then lets it pass, or is an Engine step, or is the Host's next
action (R12, R60). -/
theorem step_next {s t : State} (h : step s = .next t) :
    ∃ q, t = { s with turns := q } ∨ engineStep { s with turns := q } = .next t ∨
      ∃ a p, s.hostProgram = a :: p ∧ hostAct a { s with turns := q, hostProgram := p } = .next t := by
  have host : ∀ q, hostStep { s with turns := q } = .next t → t = { s with turns := q } ∨
      ∃ a p, s.hostProgram = a :: p ∧ hostAct a { s with turns := q, hostProgram := p } = .next t := by
    intro q hq
    obtain ⟨-, h1⟩ | ⟨a, p, hp, h1⟩ := hostStep_cases { s with turns := q } <;> rw [h1] at hq
    · exact .inl (next_inj.1 hq).symm
    · exact .inr ⟨a, p, hp, hq⟩
  obtain ⟨q, -, h1⟩ | ⟨q, -, h1⟩ | ⟨hq, -, -, h1⟩ | ⟨hq, -, h1⟩ := step_cases s <;> rw [h1] at h
  · refine ⟨q, ?_⟩
    obtain ⟨-, h2⟩ | ⟨-, h2⟩ := engineTurn_cases { s with turns := q } <;> rw [h2] at h
    · exact .inl (next_inj.1 h).symm
    · exact .inr (.inl h)
  · exact ⟨q, (host q h).imp_right .inr⟩
  · exact ⟨s.turns, .inr (.inl h)⟩
  · exact ⟨s.turns, (host s.turns h).imp_right .inr⟩

/-! ### What an Engine step reads -/

/-- The updates by which the step of a command changes the state (R100, R135, R150, R78). -/
inductive CommandUpdate : Instr → (State → State) → Prop where
  | raise (i : Instr) (e : CmdError) : CommandUpdate i (raise e none)
  | load (c : Context) : CommandUpdate .load (loadContext c)
  | start (h : Nat) (v : Context) (f : Nat) :
      CommandUpdate .decode fun s => { s with eState := .decoding, work := startWork h v f s.work }
  | clear : CommandUpdate .clear fun s => complete { s with ctxs := [] }

/-- The updates by which an Engine step in DECODING changes the state (R158, R181, R214). -/
inductive PixelUpdate : (State → State) → Prop where
  | complete : PixelUpdate complete
  | raise (e : CmdError) (c : Nat) : PixelUpdate (raisePixel e c)
  | pixel (a : Nat) (bs : List Byte) (w : Work) :
      PixelUpdate fun s => { s with mem := Memory.write s.mem a bs, work := w }

/-- The two states agree on what the Engine reads beside host memory and the working registers (R77, R102, R151, R181). -/
structure SameInputs (s u : State) : Prop where
  eState : u.eState = s.eState
  eOp : u.eOp = s.eOp
  latched : u.latched = s.latched
  ctxs : u.ctxs = s.ctxs
  platform : u.platform = s.platform

/-- The working registers agree, but for an IDX that no rule reads before the next fetch writes it (R41, R182). -/
def sameWork (w w' : Work) : Prop := ∃ x, w' = { w with idx := x } ∧ (w.rem ≠ 0#8 → x = w.idx)

/-- A read of host memory answers the same in states of one platform and one host memory (R53). -/
theorem hmemRead_congr {s u : State} (hp : u.platform = s.platform) (hm : u.mem = s.mem) (a n : Nat) :
    hmemRead u a n = hmemRead s a n := by
  rw [hmemRead, hmemRead, hp, hm]

/-- The capacity check reads the store and the platform (R102). -/
theorem hasCapacity_congr {s u : State} (h : SameInputs s u) (c : Context) : hasCapacity u c = hasCapacity s c := by
  rw [hasCapacity, hasCapacity, h.platform, h.ctxs]

/-- A LOAD whose reads are made does the same in states that agree on its inputs. -/
theorem loadParsed_agree {s u : State} (h : SameInputs s u) (pal blob : List Byte) :
    ∃ f, CommandUpdate .load f ∧ loadParsed pal blob s = f s ∧ loadParsed pal blob u = f u := by
  unfold loadParsed
  rw [h.latched]
  cases parse pal blob (asS64 s.latched.declaredSize) with
  | error e => exact ⟨_, .raise .load e, rfl, rfl⟩
  | ok c =>
    simp only [hasCapacity_congr h]
    cases hasCapacity s c with
    | true => exact ⟨_, .load c, rfl, rfl⟩
    | false => exact ⟨_, .raise .load .capacityExceeded, rfl, rfl⟩

/-- LOAD does the same in states that agree on its inputs, host memory among them: it is refused, or makes one of its
updates. -/
theorem execLoad_agree {s u : State} (h : SameInputs s u) (hm : u.mem = s.mem) :
    (execLoad s = .fault .hostMemoryRefused ∧ execLoad u = .fault .hostMemoryRefused) ∨
    ∃ f, CommandUpdate .load f ∧ execLoad s = .next (f s) ∧ execLoad u = .next (f u) := by
  unfold execLoad
  simp only [h.latched, hmemRead_congr h.platform hm]
  by_cases hpal : s.latched.palLen.toNat % 3 ≠ 0
  · exact .inr ⟨_, .raise .load .badCommand, if_pos hpal, if_pos hpal⟩
  · simp only [if_neg hpal]
    cases hmemRead s s.latched.palBase.toNat s.latched.palLen.toNat with
    | none => exact .inl ⟨rfl, rfl⟩
    | some pal =>
      cases hmemRead s s.latched.blobBase.toNat s.latched.blobLen.toNat with
      | none => exact .inl ⟨rfl, rfl⟩
      | some blob =>
        obtain ⟨f, hf, hs, hu⟩ := loadParsed_agree h pal blob
        exact .inr ⟨f, hf, congrArg _ hs, congrArg _ hu⟩

/-- DECODE's prologue step does the same in states that agree on its inputs. -/
theorem execDecode_agree {s u : State} (h : SameInputs s u) :
    ∃ f, CommandUpdate .decode f ∧ execDecode s = .next (f s) ∧ execDecode u = .next (f u) := by
  unfold execDecode
  rw [h.latched, h.ctxs]
  cases prologue s.ctxs s.latched with
  | error e => exact ⟨_, .raise .decode e, rfl, rfl⟩
  | ok p => exact ⟨_, .start _ p.1 p.2, rfl, by rw [h.latched, h.ctxs]⟩

/-- A command does the same in states that agree on its inputs, of which host memory is one for LOAD only: it is refused,
or makes one of its updates (R53, R100, R135, R150, R78). -/
theorem exec_command_agree {i : Instr} {s u : State}
    (hi : i = .load ∨ i = .decode ∨ i = .clear ∨ ∃ op, i = .cmdReserved op) (h : SameInputs s u)
    (hm : i = .load → u.mem = s.mem) :
    (exec i s = .fault .hostMemoryRefused ∧ exec i u = .fault .hostMemoryRefused) ∨
    ∃ f, CommandUpdate i f ∧ exec i s = .next (f s) ∧ exec i u = .next (f u) := by
  obtain rfl | rfl | rfl | ⟨op, rfl⟩ := hi
  · exact execLoad_agree h (hm rfl)
  · exact .inr (execDecode_agree h)
  · exact .inr ⟨_, .clear, rfl, rfl⟩
  · exact .inr ⟨_, .raise _ .badCommand, rfl, rfl⟩

/-- E_OP always names a command (R77). -/
theorem decodeOp_command (op : Op) :
    decodeOp op = .load ∨ decodeOp op = .decode ∨ decodeOp op = .clear ∨ ∃ op', decodeOp op = .cmdReserved op' := by
  obtain ⟨-, h⟩ | ⟨-, h⟩ | ⟨-, h⟩ | ⟨-, -, -, h⟩ := decodeOp_cases op <;> simp [h]

/-- Only OP 1 names LOAD (R77). -/
theorem decodeOp_eq_load {op : Op} (h : decodeOp op = .load) : op = 1 := by
  obtain ⟨ho, -⟩ | ⟨-, h'⟩ | ⟨-, h'⟩ | ⟨-, -, -, h'⟩ := decodeOp_cases op
  · exact ho
  all_goals cases h.symm.trans h'

/-- A pending command does the same in states that agree on its inputs, and a LOAD if they agree on host memory too: no other
field is read. -/
theorem engineStep_pending_agree {s u : State} (hs : s.eState = .pending) (h : SameInputs s u)
    (hm : s.eOp = 1 → u.mem = s.mem) :
    (engineStep s = .fault .hostMemoryRefused ∧ engineStep u = .fault .hostMemoryRefused) ∨
    ∃ f, CommandUpdate (decodeOp s.eOp) f ∧ engineStep s = .next (f s) ∧ engineStep u = .next (f u) := by
  rw [engineStep_pending hs, engineStep_pending (h.eState.trans hs), h.eOp]
  exact exec_command_agree (decodeOp_command s.eOp) h fun hload => hm (decodeOp_eq_load hload)

/-- The fetch part of the pixel step does not read an IDX left of a used-up run (R182). -/
theorem loadRun_congr {w w' : Work} (h : sameWork w w') (l p : Byte) : loadRun l p w' = loadRun l p w := by
  obtain ⟨x, rfl, hx⟩ := h
  by_cases hr : w.rem = 0#8
  · simp [loadRun, nextCursor, hr]
  · rw [hx hr]

/-- Which run pair comes next does not depend on an IDX left of a used-up run (R182). -/
theorem currentRun_congr {w w' : Work} (h : sameWork w w') (v : Context) : currentRun v w' = currentRun v w := by
  obtain ⟨x, rfl, hx⟩ := h
  by_cases hr : w.rem = 0#8
  · simp [currentRun, nextCursor, hr]
  · rw [hx hr]

/-- Host memory admits a write by the platform alone (R53). -/
theorem hmemWrite_agree {s u : State} (hp : u.platform = s.platform) (a : Nat) (bs : List Byte) :
    (hmemWrite s a bs = none ∧ hmemWrite u a bs = none) ∨
    (hmemWrite s a bs = some (Memory.write s.mem a bs) ∧ hmemWrite u a bs = some (Memory.write u.mem a bs)) := by
  unfold hmemWrite
  rw [hp]
  split <;> simp

/-- The pixel step does the same in states that agree on its inputs; what host memory holds is none of them. -/
theorem pixelStep_agree {s u : State} (h : SameInputs s u) (hw : sameWork s.work u.work) (l p : Byte) :
    (∃ e, pixelStep l p s = .fault e ∧ pixelStep l p u = .fault e) ∨
    ∃ f, PixelUpdate f ∧ pixelStep l p s = .next (f s) ∧ pixelStep l p u = .next (f u) := by
  have hcur : nextCursor u.work = nextCursor s.work := by obtain ⟨x, hx, -⟩ := hw; rw [hx]; rfl
  have hctx : u.work.ctxIndex = s.work.ctxIndex := by obtain ⟨x, hx, -⟩ := hw; rw [hx]
  unfold pixelStep
  rw [loadRun_congr hw, h.ctxs, h.latched, hcur, hctx]
  cases s.ctxs[s.work.ctxIndex]? with
  | none => exact .inl ⟨_, rfl, rfl⟩
  | some v =>
    cases loadRun l p s.work with
    | error e => exact .inr ⟨_, .raise e _, rfl, rfl⟩
    | ok w =>
      by_cases hp : v.palCount ≤ w.idx.toNat
      · exact .inr ⟨_, .raise .invalidPaletteIndex w.cursor, if_pos hp, if_pos hp⟩
      · simp only [if_neg hp]
        obtain ⟨h1, h2⟩ | ⟨h1, h2⟩ := hmemWrite_agree h.platform (pixelAddr s.latched w.pixel)
          (pixelBytes (paletteEntry v w.idx)) <;> rw [h1, h2]
        · exact .inl ⟨_, rfl, rfl⟩
        · exact .inr ⟨_, .pixel _ _ _, rfl, by rw [h.latched, h.ctxs]⟩

/-- An Engine step in DECODING does the same in states that agree on its inputs (R157, R158, R181). -/
theorem engineStep_decoding_agree {s u : State} (hs : s.eState = .decoding) (h : SameInputs s u)
    (hw : sameWork s.work u.work) :
    (∃ e, engineStep s = .fault e ∧ engineStep u = .fault e) ∨
    ∃ f, PixelUpdate f ∧ engineStep s = .next (f s) ∧ engineStep u = .next (f u) := by
  have hpixel := fun l p => pixelStep_agree h hw l p
  have hrun := currentRun_congr hw
  obtain ⟨x, hx, -⟩ := hw
  unfold engineStep
  rw [h.eState, hs, h.ctxs]
  simp only [hrun]
  simp only [hx]
  by_cases hlt : s.work.pixel < s.work.npix
  · simp only [if_pos hlt]
    cases s.ctxs[s.work.ctxIndex]? with
    | none => exact .inl ⟨_, rfl, rfl⟩
    | some v =>
      obtain ⟨-, -, h1⟩ | ⟨-, -, h1⟩ | ⟨-, h1⟩ := currentRun_cases v s.work <;> simp only [h1]
      · exact .inr ⟨_, .raise .truncatedRunStream _, rfl, rfl⟩
      · rw [exec_decodePair, exec_decodePair]
        exact hpixel _ _
      · exact hpixel _ _
  · simp only [if_neg hlt]
    by_cases heq : s.work.pixel = s.work.npix
    · exact .inr ⟨_, .complete, if_pos heq, if_pos heq⟩
    · exact .inl ⟨_, if_neg heq, if_neg heq⟩

/-- Any Engine step does the same in states that agree on its inputs, of which host memory is one for a pending LOAD only: it
stops, or makes the update of an idle Engine, of a command or of the pixel loop. -/
theorem engineStep_agree {s u : State} (h : SameInputs s u) (hm : s.eState = .pending → s.eOp = 1 → u.mem = s.mem)
    (hw : sameWork s.work u.work) :
    (∃ e, engineStep s = .fault e ∧ engineStep u = .fault e) ∨
    ∃ f, (f = id ∨ (∃ i, CommandUpdate i f) ∨ PixelUpdate f) ∧
      engineStep s = .next (f s) ∧ engineStep u = .next (f u) := by
  cases hs : s.eState with
  | idle => exact .inr ⟨id, .inl rfl, engineStep_idle hs, engineStep_idle (h.eState.trans hs)⟩
  | pending =>
    obtain hrefused | ⟨f, hf, hnext⟩ := engineStep_pending_agree hs h (hm hs)
    · exact .inl ⟨_, hrefused⟩
    · exact .inr ⟨f, .inr (.inl ⟨_, hf⟩), hnext⟩
  | decoding =>
    obtain hfault | ⟨f, hf, hnext⟩ := engineStep_decoding_agree hs h hw
    · exact .inl hfault
    · exact .inr ⟨f, .inr (.inr hf), hnext⟩

/-- A pixel-loop error does not read IDX, and keeps it (R162, R214). -/
theorem raisePixel_idx (e : CmdError) (c : Nat) (s : State) (x : Byte) :
    raisePixel e c { s with work := { s.work with idx := x } } =
      { raisePixel e c s with work := { s.work with idx := x } } := by
  unfold raisePixel spoilDest
  dsimp only
  split <;> rfl

/-- A pixel-loop error does not read the ARG registers, and keeps them (R252). -/
theorem raisePixel_setArgs (e : CmdError) (c : Nat) (s : State) (a : Operands) :
    raisePixel e c { s with args := a } = { raisePixel e c s with args := a } := by
  unfold raisePixel spoilDest
  dsimp only
  split <;> rfl

/-- The updates of a command do not read the ARG registers, and keep them (R252). -/
theorem CommandUpdate.setArgs {i : Instr} {f : State → State} (hf : CommandUpdate i f) (s : State) (a : Operands) :
    f { s with args := a } = { f s with args := a } := by
  cases hf <;> rfl

/-- The updates of a DECODE do not read the ARG registers, and keep them (R252). -/
theorem PixelUpdate.setArgs {f : State → State} (hf : PixelUpdate f) (s : State) (a : Operands) :
    f { s with args := a } = { f s with args := a } := by
  cases hf with
  | complete => rfl
  | raise e c => exact raisePixel_setArgs e c s a
  | pixel a' bs w => rfl

/-- An Engine step does not read the ARG registers, and keeps them (R252). -/
theorem engineStep_setArgs (s : State) (a : Operands) :
    engineStep { s with args := a } = mapNext (fun t => { t with args := a }) (engineStep s) := by
  have hin : SameInputs s { s with args := a } := ⟨rfl, rfl, rfl, rfl, rfl⟩
  obtain ⟨e, h1, h2⟩ | ⟨f, hf, h1, h2⟩ := engineStep_agree hin (fun _ _ => rfl) ⟨s.work.idx, rfl, fun _ => rfl⟩ <;> rw [h1, h2]
  · rfl
  · refine congrArg _ ?_
    obtain rfl | ⟨i, hf⟩ | hf := hf
    · rfl
    · exact hf.setArgs s a
    · exact hf.setArgs s a

/-- The working registers as far as they can be seen: none outside DECODING, and IDX not before the first fetch (R41). -/
def hideWork (t : State) : State :=
  { t with work := if t.eState = .decoding then { t.work with idx := 0 } else Work.zero }

/-- The updates of a command do not read the working registers, but for IDX, which a prologue keeps (R41, R156). -/
theorem CommandUpdate.hideWork {i : Instr} {f : State → State} (hf : CommandUpdate i f) (s : State) (w : Work) :
    hideWork (f { s with work := w }) = hideWork (f s) := by
  cases hf <;> rfl

/-! ### The latched operands while the block is idle -/

/-- While IDLE a Host action does not read E_OP or the latched operands: it leaves them as they are in an idle block, or it
writes them itself (R25, R42). -/
theorem hostAct_latched_idle {s : State} (h : s.eState = .idle) (a : HostAction) (l : Operands) (o : Op) :
    hostAct a { s with latched := l, eOp := o } = hostAct a s ∨
    ∃ t, hostAct a s = .next t ∧ hostAct a { s with latched := l, eOp := o } = .next { t with latched := l, eOp := o } ∧
      t.eState = .idle := by
  cases a with
  | regRead off width =>
    by_cases hok : regAccessOk off width = true
    · exact .inr ⟨_, if_pos hok, if_pos hok, h⟩
    · exact .inl (Eq.trans (if_neg hok) (if_neg hok).symm)
  | regWrite off width w =>
    by_cases hok : regAccessOk off width = true
    · simp only [hostAct, writeReg, if_pos hok]
      by_cases h0 : off = 0
      · simp only [if_pos h0, accept, latch, h]
        exact .inl rfl
      · simp only [if_neg h0]
        exact .inr ⟨_, rfl, rfl, h⟩
    · exact .inl (Eq.trans (if_neg hok) (if_neg hok).symm)
  | memRead addr n =>
    by_cases hw : meetsWindow s addr.toNat n
    · exact .inl (Eq.trans (hostMemRead_window hw) (hostMemRead_window hw).symm)
    · by_cases hb : 2 ^ 64 < addr.toNat + n
      · exact .inl (Eq.trans (hostMemRead_past hw hb) (hostMemRead_past hw hb).symm)
      · have hw := touchesWindow_eq_false hw
        exact .inr ⟨_, hostMemRead_idle h hw (Nat.not_lt.1 hb), hostMemRead_idle h hw (Nat.not_lt.1 hb), h⟩
  | memWrite addr bs =>
    by_cases hw : meetsWindow s addr.toNat bs.length
    · exact .inl (Eq.trans (hostMemWrite_window hw) (hostMemWrite_window hw).symm)
    · by_cases hb : 2 ^ 64 < addr.toNat + bs.length
      · exact .inl (Eq.trans (hostMemWrite_past hw hb) (hostMemWrite_past hw hb).symm)
      · have hw := touchesWindow_eq_false hw
        exact .inr ⟨_, hostMemWrite_idle h hw (Nat.not_lt.1 hb), hostMemWrite_idle h hw (Nat.not_lt.1 hb), h⟩
  | wait => exact .inr ⟨_, rfl, rfl, h⟩
  | reset => exact .inl rfl

/-! ### The contexts a LOAD makes -/

/-- A palette made of `n` entries is black from entry `n` on (R35, R108). -/
theorem buildPalette_getD (pal : List Byte) {n k : Nat} (h : n ≤ k) :
    (buildPalette pal n).getD k Color.black = Color.black := by
  by_cases hk : k < Config.paletteCapacity
  · simp [buildPalette, List.getD_eq_getElem?_getD, List.getElem?_range hk, Nat.not_lt.2 h]
  · exact List.getD_eq_default _ _ (by simp only [buildPalette, List.length_map, List.length_range]; exact Nat.not_lt.1 hk)

/-- The context of a successful parse is as R34 and R35 say. -/
theorem parsedContext_ok {pal blob : List Byte} (hpal : pal.length / 3 ≤ Config.paletteCapacity)
    (hblob : blob.length < 2 ^ 64) : ContextOk (parsedContext pal blob) where
  offsets_length := by simp [parsedContext, offsetTable]
  pal_length := by simp [parsedContext, buildPalette]
  pal_count := hpal
  pal_rest _ hk := buildPalette_getD pal hk
  rle_length := by simp only [parsedContext, List.length_drop]; omega

/-- A LOAD adds no context to the store but one that is as R34 and R35 say. -/
theorem execLoad_contexts {s t : State} (h : execLoad s = .next t) : ∀ c ∈ t.ctxs, c ∈ s.ctxs ∨ ContextOk c := by
  obtain ⟨-, h1⟩ | ⟨-, -, h1⟩ | ⟨-, -, -, h1⟩ := execLoad_cases s <;> rw [h1] at h
  · cases h
    exact fun c hc => .inl (raise_ctxs .. ▸ hc)
  · cases h
  · obtain rfl := next_inj.1 h
    have hblob := Memory.read_length s.mem s.latched.blobBase.toNat s.latched.blobLen.toNat
    generalize Memory.read s.mem s.latched.blobBase.toNat s.latched.blobLen.toNat = blob at *
    generalize Memory.read s.mem s.latched.palBase.toNat s.latched.palLen.toNat = pal at *
    obtain ⟨e, -, h2⟩ | ⟨c', -, -, h2⟩ | ⟨c', hp, -, h2⟩ := loadParsed_cases pal blob s <;> rw [h2]
    · exact fun c hc => .inl (raise_ctxs .. ▸ hc)
    · exact fun c hc => .inl (raise_ctxs .. ▸ hc)
    · intro c hc
      rw [loadContext_ctxs, List.mem_append, List.mem_singleton] at hc
      refine hc.imp_right ?_
      rintro rfl
      obtain ⟨-, h3⟩ | ⟨-, -, h3⟩ | ⟨-, -, -, h3⟩ | ⟨-, -, -, -, h3⟩ | ⟨-, -, -, hpal, h3⟩ :=
        parse_cases pal blob (asS64 s.latched.declaredSize) <;> rw [h3] at hp <;> cases hp
      exact parsedContext_ok hpal (hblob ▸ s.latched.blobLen.isLt)

/-- No error has a reserved code (R210). -/
theorem code_le (e : CmdError) : e.code.toNat ≤ 11 := by
  cases e <;> decide

end Sys2Proof.Machine

namespace Sys2Proof.Safety

open Sys2Proof.Machine Sys2Proof.Claims

/-! ### The working registers of a DECODE -/

/-- The prologue's working registers (R156). -/
theorem workOk_start {ctxs : List Context} {l : Operands} {v : Context} {f : Nat} (h : prologue ctxs l = .ok (v, f))
    (n : Nat) (w : Work) : WorkOk l v (startWork n v f w) := by
  obtain ⟨hstride, -, -, -, hcap, -⟩ := prologue_ok_iff.1 h
  have hoff := (v.offsets.getD f 0#32).isLt
  exact
    { npix := rfl
      capacity := hcap
      stride := hstride
      pixel := Nat.zero_le _
      cursor_even := Nat.mul_mod_left _ 2
      cursor_bound := by simp only [startWork, firstPair]; omega
      fresh := fun _ => ⟨rfl, rfl⟩
      in_stream := nofun
      current_idx := nofun
      current_rem := nofun }

/-- The cursor of the next fetch is even (R32, R182). -/
theorem WorkOk.nextCursor_even {l : Operands} {v : Context} {w : Work} (h : WorkOk l v w) : nextCursor w % 2 = 0 := by
  have heven := h.cursor_even
  unfold nextCursor
  split
  · simp only [Config.pairBytes]; omega
  · exact heven

/-- A pixel counted after a fetch (R182, R191). -/
theorem WorkOk.fetch {l : Operands} {v : Context} {w w' : Work} (h : WorkOk l v w) (hlt : w.pixel < w.npix)
    (hr : w.rem = 0#8) (hin : nextCursor w + 2 ≤ v.rle.length)
    (hrun : loadRun (byteAt v.rle (nextCursor w)) (byteAt v.rle (nextCursor w + 1)) w = .ok w')
    (hidx : w'.idx.toNat < v.palCount) : WorkOk l v (countPixel w') := by
  obtain ⟨-, -, h1⟩ | ⟨-, hl, h1⟩ | ⟨hr', -⟩ := loadRun_cases (byteAt v.rle (nextCursor w))
    (byteAt v.rle (nextCursor w + 1)) w
  · rw [h1] at hrun
    cases hrun
  · rw [h1] at hrun
    cases hrun
    exact
      { npix := h.npix
        capacity := h.capacity
        stride := h.stride
        pixel := hlt
        cursor_even := h.nextCursor_even
        cursor_bound := by simp only [countPixel]; omega
        fresh := nofun
        in_stream := fun _ => hin
        current_idx := fun _ => ⟨rfl, hidx⟩
        current_rem := fun _ => by simp only [countPixel]; bv_omega }
  · exact absurd hr hr'

/-- A pixel counted in the rest of the current run (R191). -/
theorem WorkOk.keepRun {l : Operands} {v : Context} {w w' : Work} (h : WorkOk l v w) (hlt : w.pixel < w.npix)
    (hr : w.rem ≠ 0#8) (hrun : loadRun w.rem w.idx w = .ok w') : WorkOk l v (countPixel w') := by
  obtain ⟨hr', -⟩ | ⟨hr', -⟩ | ⟨-, h1⟩ := loadRun_cases w.rem w.idx w
  · exact absurd hr' hr
  · exact absurd hr' hr
  · rw [h1] at hrun
    cases hrun
    exact
      { npix := h.npix
        capacity := h.capacity
        stride := h.stride
        pixel := hlt
        cursor_even := h.cursor_even
        cursor_bound := h.cursor_bound
        fresh := fun hs => absurd (h.fresh hs).2 hr
        in_stream := h.in_stream
        current_idx := h.current_idx
        current_rem := fun hs => by
          have hlen := h.current_rem hs
          simp only [countPixel]
          bv_omega }

/-! ### The invariant under each update of the state -/

/-- The invariant at reset (R42), the base of the induction over a run. -/
theorem inv_reset : Inv State.reset where
  mem_wf := rfl
  contexts := by simp [State.reset]
  done_idle := nofun
  err_done _ := rfl
  err_code := Nat.zero_le _
  err_info _ _ _ := ⟨rfl, rfl⟩
  decoding := nofun

variable {s t : State}

/-- The invariant does not read the ARG and RES registers, HAZARD, the platform and the Host's side, and of host memory it
reads the canonical form only. -/
theorem Inv.frame (h : Inv s) {a : Operands} {r : Results} {m : Memory} {z : Bool} {f : Config.Platform}
    {p : List HostAction} {q : List Agent} {x : HostValue} {k : Nat} (hm : Memory.wf m = true) :
    Inv { s with args := a, res := r, mem := m, hazard := z, platform := f, hostProgram := p, turns := q,
                 lastRead := x, freeNext := k } where
  mem_wf := hm
  contexts := h.contexts
  done_idle := h.done_idle
  err_done := h.err_done
  err_code := h.err_code
  err_info := h.err_info
  decoding := h.decoding

/-- A running command has reported nothing yet (R26, R29). -/
theorem Inv.busy_outcome (h : Inv s) (hb : s.eState ≠ .idle) :
    s.done = false ∧ s.err = 0 ∧ s.errPixel = 0 ∧ s.errCursor = 0 := by
  have hdone : s.done = false := Bool.eq_false_iff.2 (mt h.done_idle hb)
  have herr := h.err_done hdone
  exact ⟨hdone, herr, h.err_info (by rw [herr]; decide) (by rw [herr]; decide) (by rw [herr]; decide)⟩

/-- A CMD write keeps the invariant, accepted or not (R25). -/
theorem Inv.accept (h : Inv s) (w : Word) : Inv (accept w s) := by
  by_cases hidle : s.eState = .idle
  · rw [accept_idle hidle]
    exact
      { mem_wf := h.mem_wf
        contexts := h.contexts
        done_idle := nofun
        err_done := fun _ => rfl
        err_code := Nat.zero_le _
        err_info := fun _ _ _ => ⟨rfl, rfl⟩
        decoding := nofun }
  · rw [accept_busy hidle]
    exact h.frame h.mem_wf

/-- A reset gives the invariant whatever it ends, since host memory stays in canonical form (R240). -/
theorem Inv.blockReset (h : Inv s) : Inv (blockReset s) := inv_reset.frame h.mem_wf

/-- Every Host action keeps the invariant. -/
theorem Inv.hostAct (h : Inv s) {a : HostAction} (hact : hostAct a s = .next t) : Inv t := by
  obtain ⟨off, width, -, rfl⟩ | ⟨w, -, rfl⟩ | ⟨off, width, w, -, -, rfl⟩ | ⟨addr, n, v, k, -, rfl⟩ |
    ⟨addr, bs, -, hb, rfl⟩ | ⟨v, p, -, rfl⟩ | ⟨-, rfl⟩ := hostAct_next hact
  · exact h.frame h.mem_wf
  · exact h.accept w
  · exact h.frame h.mem_wf
  · exact h.frame h.mem_wf
  · exact h.frame (Memory.wf_write h.mem_wf hb)
  · exact h.frame h.mem_wf
  · exact h.blockReset

/-- A running command that ends in success keeps the invariant, when the store it leaves does (R215). -/
theorem Inv.complete (h : Inv s) (hb : s.eState ≠ .idle) {cs : List Context} {r : Results}
    (hcs : ∀ c ∈ cs, ContextOk c) : Inv (complete { s with ctxs := cs, res := r }) where
  mem_wf := h.mem_wf
  contexts := hcs
  done_idle _ := rfl
  err_done _ := rfl
  err_code := Nat.zero_le _
  err_info _ _ _ := (h.busy_outcome hb).2.2
  decoding := nofun

/-- A running command that ends in an error without info keeps the invariant (R214). -/
theorem Inv.raise (h : Inv s) (hb : s.eState ≠ .idle) (e : CmdError) : Inv (raise e none s) where
  mem_wf := h.mem_wf
  contexts := h.contexts
  done_idle _ := rfl
  err_done := nofun
  err_code := code_le e
  err_info _ _ _ := (h.busy_outcome hb).2.2
  decoding := nofun

/-- A DECODE that ends in its pixel loop keeps the invariant (R162, R214). -/
theorem Inv.raisePixel (h : Inv s) {e : CmdError}
    (he : e = .zeroLengthRun ∨ e = .invalidPaletteIndex ∨ e = .truncatedRunStream) (c : Nat) :
    Inv (raisePixel e c s) where
  mem_wf := by simpa using spoilDest_wf h.mem_wf
  contexts := by simpa using h.contexts
  done_idle := by simp
  err_done := by simp
  err_code := by simpa using code_le e
  err_info := by obtain rfl | rfl | rfl := he <;> simp [CmdError.code]
  decoding := by simp

/-- The start of a DECODE's pixel loop keeps the invariant (R156). -/
theorem Inv.startDecode (h : Inv s) (hb : s.eState ≠ .idle) (ho : s.eOp = 2) {v : Context} {f : Nat}
    (hp : prologue s.ctxs s.latched = .ok (v, f)) :
    Inv { s with eState := .decoding, work := startWork (asS64 s.latched.handle).toNat v f s.work } where
  mem_wf := h.mem_wf
  contexts := h.contexts
  done_idle hd := by simp [(h.busy_outcome hb).1] at hd
  err_done := h.err_done
  err_code := h.err_code
  err_info := h.err_info
  decoding _ := by
    obtain ⟨-, hv, -⟩ := prologue_ok_iff.1 hp
    exact ⟨ho, v, (getContext_eq_some.1 hv).2, workOk_start hp _ _⟩

/-- The pixel step keeps the invariant, when the run it counts does (R181). -/
theorem Inv.pixelStep (h : Inv s) (hs : s.eState = .decoding) {l p : Byte} (hpix : pixelStep l p s = .next t)
    (hw : ∀ v w, s.ctxs[s.work.ctxIndex]? = some v → loadRun l p s.work = .ok w → w.idx.toNat < v.palCount →
      WorkOk s.latched v (countPixel w)) : Inv t := by
  obtain ⟨e, he, rfl⟩ | ⟨v, w, hv, hrun, hidx, hadm, rfl⟩ := pixelStep_next hpix
  · exact h.raisePixel (he.imp_right .inl) _
  · obtain ⟨-, -, hctx, -⟩ := loadRun_ok hrun
    exact
      { mem_wf := Memory.wf_write h.mem_wf (hmemAdmit_bound hadm)
        contexts := h.contexts
        done_idle := h.done_idle
        err_done := h.err_done
        err_code := h.err_code
        err_info := h.err_info
        decoding := fun _ => ⟨(h.decoding hs).1, v, (congrArg (s.ctxs[·]?) hctx).trans hv, hw v w hv hrun hidx⟩ }

/-- Every Engine step keeps the invariant, by E_STATE. -/
theorem Inv.engineStep (h : Inv s) (hstep : engineStep s = .next t) : Inv t := by
  cases hs : s.eState with
  | idle =>
    rw [engineStep_idle hs] at hstep
    exact next_inj.1 hstep ▸ h
  | pending =>
    have hb : s.eState ≠ .idle := by simp [hs]
    obtain ⟨e, -, -, -, rfl⟩ | ⟨ho, c, rfl⟩ | ⟨ho, v, f, hp, rfl⟩ | ⟨-, rfl⟩ := engineStep_pending_next hs hstep
    · exact h.raise hb e
    · rw [engineStep_pending hs, ho] at hstep
      exact h.complete hb fun c' hc' => (execLoad_contexts hstep c' hc').elim (h.contexts c') id
    · exact h.startDecode hb ho hp
    · exact h.complete hb nofun
  | decoding =>
    have hb : s.eState ≠ .idle := by simp [hs]
    obtain ⟨-, v, hv, hwork⟩ := h.decoding hs
    obtain ⟨-, h1⟩ | ⟨-, h1⟩ | ⟨-, -, h1⟩ | ⟨v', hlt, hv', ⟨hr, -, h1⟩ | ⟨hr, hin, h1⟩ | ⟨hr, h1⟩⟩ :=
      engineStep_decoding_cases hs <;> rw [h1] at hstep
    · exact next_inj.1 hstep ▸ h.complete hb h.contexts
    · cases hstep
    · cases hstep
    · exact next_inj.1 hstep ▸ h.raisePixel (.inr (.inr rfl)) _
    · obtain rfl : v = v' := Option.some.inj (hv.symm.trans hv')
      refine h.pixelStep hs hstep fun u w hu hrun hidx => ?_
      obtain rfl : v = u := Option.some.inj (hv.symm.trans hu)
      exact hwork.fetch hlt hr hin hrun hidx
    · refine h.pixelStep hs hstep fun u w hu hrun _ => ?_
      obtain rfl : v = u := Option.some.inj (hv.symm.trans hu)
      exact hwork.keepRun hlt hr hrun

/-- With the invariant the Engine steps, or host memory refuses its request: no state is without a rule (R31, R41, R53). -/
theorem Inv.engine_answers (h : Inv s) :
    (∃ t, Machine.engineStep s = .next t) ∨ Machine.engineStep s = .fault .hostMemoryRefused := by
  cases hs : s.eState with
  | idle => exact .inl ⟨s, engineStep_idle hs⟩
  | pending =>
    obtain ⟨h1, -⟩ | ⟨f, -, h1, -⟩ := engineStep_pending_agree hs ⟨rfl, rfl, rfl, rfl, rfl⟩ fun _ => rfl
    · exact .inr h1
    · exact .inl ⟨_, h1⟩
  | decoding =>
    obtain ⟨-, v, hv, hwork⟩ := h.decoding hs
    have hpixel : ∀ l p, (∃ t, Machine.pixelStep l p s = .next t) ∨
        Machine.pixelStep l p s = .fault .hostMemoryRefused := by
      intro l p
      obtain ⟨hno, -⟩ | ⟨_, -, ⟨_, -, h1⟩ | ⟨_, -, -, h1⟩ | ⟨_, -, -, -, h1⟩ | ⟨_, -, -, -, h1⟩⟩ :=
        pixelStep_cases l p s
      · cases hv.symm.trans hno
      · exact .inl ⟨_, h1⟩
      · exact .inl ⟨_, h1⟩
      · exact .inr h1
      · exact .inl ⟨_, h1⟩
    obtain ⟨-, h1⟩ | ⟨hgt, -⟩ | ⟨-, hno, -⟩ | ⟨_, -, -, ⟨-, -, h1⟩ | ⟨-, -, h1⟩ | ⟨-, h1⟩⟩ :=
      engineStep_decoding_cases hs
    · exact .inl ⟨_, h1⟩
    · exact absurd hwork.pixel (Nat.not_le.2 hgt)
    · cases hv.symm.trans hno
    · exact .inl ⟨_, h1⟩
    · exact h1 ▸ hpixel _ _
    · exact h1 ▸ hpixel _ _

end Sys2Proof.Safety

namespace Sys2Proof.Proofs.BlockState

open Sys2Proof.Machine Sys2Proof.Safety Sys2Proof.Claims

/-- Settles O17: each direction from the lemmas on OPs and run pairs. -/
theorem decodeAndEncodeAgree : Obligations.DecodeAndEncodeAgree := by
  refine ⟨fun i h => decode_encode h, fun c i h => decode_wf h, fun l p rest i h => ?_, fun w i h => ?_⟩
  · cases h
    exact encode_decodePair l p
  · cases h
    rw [encode_decodeOp]
    refine congrArg Code.command (BitVec.eq_of_toNat_eq ?_)
    rw [BitVec.toNat_setWidth, BitVec.toNat_ofNat, opField_toNat]

/-- Settles O3: one lemma on the window for each clause on registers, and R58's overlap for the last two. -/
theorem registerWindowAccessRules : Obligations.RegisterWindowAccessRules := by
  refine ⟨fun s off w h => ?_, fun s off w h1 h2 h3 h4 => ?_, fun s off h1 h2 => ?_, fun s off h => readReg_reserved h s,
    fun s w => ⟨_, rfl, accept_args w s⟩, fun s off width w h => ?_, fun s a bs h => ?_, fun s a bs h hb => ?_⟩
  · have hok : regAccessOk off 64 = true ∧ off ≠ 0 := by revert off; decide
    refine ⟨{ s with args := writeArg s.args off w }, ?_, ?_, fun off' h' => ?_, rfl⟩
    · simp [hostAct, writeReg, hok]
    · rw [readReg_writeArg h, if_pos rfl]
    · rw [readReg_writeArg h, if_neg h']
  · simp [hostAct, writeReg, regAccessOk_iff.2 ⟨rfl, h1, h2⟩, h3, writeArg_of_notMem h4]
  · exact if_pos (regAccessOk_iff.2 ⟨rfl, h1, h2⟩)
  · have hno : ¬ regAccessOk off width = true := mt regAccessOk_iff.1 h
    exact ⟨if_neg hno, if_neg hno⟩
  · exact ⟨hostMemRead_window h, hostMemWrite_window h⟩
  · exact ⟨hostMemRead_past h hb, hostMemWrite_past h hb⟩

/-- Settles O5, by the bits of the STATUS word. -/
theorem statusWordFields : Obligations.StatusWordFields := by
  intro s
  have hword : readReg s 0x08 = statusWord s := rfl
  simp only [hword]
  refine ⟨?_, ?_, ?_, ?_, fun k h0 h1 h8 h16 => ?_⟩
  · rw [statusWord_getLsbD]
    simp [busy, bne, beq_eq_decide]
  · rw [statusWord_getLsbD]
    simp
  · refine BitVec.eq_of_getLsbD_eq fun k hk => ?_
    have h1 : 8 + k ≠ 1 := by omega
    have h16 : 8 + k ≠ 16 := by omega
    rw [BitVec.getLsbD_extractLsb', statusWord_getLsbD]
    simp [hk, h1, h16]
  · rw [statusWord_getLsbD]
    simp
  · rw [statusWord_getLsbD]
    have herr : 8 ≤ k → s.err.getLsbD (k - 8) = false := fun h => BitVec.getLsbD_of_ge _ _ (by omega)
    simpa [h0, h1, h16] using herr

/-- Settles O6: a CMD write by R25's two branches, and an Engine step by its updates, none of which reads an ARG register. -/
theorem commandAcceptance : Obligations.CommandAcceptance :=
  ⟨fun _ _ h => congrArg _ (accept_idle h), fun _ _ h => congrArg _ (accept_busy h), engineStep_setArgs⟩

/-- Settles O8, by the agent whose step it is. -/
theorem contextStoreIsAppendOnly : Obligations.ContextStoreIsAppendOnly := by
  intro s t h
  obtain ⟨q, rfl | h | ⟨a, p, hp, h⟩⟩ := step_next h
  · exact .inl rfl
  · obtain ⟨hc, -⟩ | ⟨hs, ho, c, rfl⟩ | ⟨hs, ho, rfl⟩ := engineStep_store h
    · exact .inl hc
    · exact .inr (.inl ⟨c, rfl, hs, ho, rfl, rfl, rfl, rfl⟩)
    · exact .inr (.inr (.inl ⟨rfl, hs, ho, rfl, rfl, rfl⟩))
  · obtain ⟨rfl, rfl⟩ | ⟨hc, -, -⟩ := hostAct_keeps h
    · exact .inr (.inr (.inr (resets_blockReset hp q)))
    · exact .inl hc

/-- Settles O9, by the agent whose step it is. -/
theorem resultsWrittenOnlyByLoad : Obligations.ResultsWrittenOnlyByLoad := by
  intro s t h hne
  obtain ⟨q, rfl | h | ⟨a, p, hp, h⟩⟩ := step_next h
  · exact absurd rfl hne
  · obtain ⟨-, hr⟩ | ⟨hs, ho, c, rfl⟩ | ⟨-, -, rfl⟩ := engineStep_store h
    · exact absurd hr hne
    · exact .inl ⟨hs, ho, rfl, rfl, rfl⟩
    · exact absurd rfl hne
  · obtain ⟨rfl, rfl⟩ | ⟨-, hr, -⟩ := hostAct_keeps h
    · exact .inr (resets_blockReset hp q)
    · exact absurd hr hne

/-- Settles O10: no Engine step writes HAZARD, and of the Host's actions R250 and R251 name those that set it. -/
theorem hazardIsSticky : Obligations.HazardIsSticky := by
  refine ⟨fun s t h hz => ?_, fun s t h hs ht => ?_, fun s hz => ⟨fun hf => hf.2.2 hz, fun hok => hok.2.2.2 hz⟩⟩
  · obtain ⟨q, rfl | h | ⟨a, p, hp, h⟩⟩ := step_next h
    · exact .inl hz
    · obtain ⟨-, -, -, hsame, -⟩ := engineStep_hostSide h
      exact .inl (hsame.trans hz)
    · obtain ⟨rfl, rfl⟩ | ⟨-, -, hkeep⟩ := hostAct_keeps h
      · exact .inr (resets_blockReset hp q)
      · exact .inl (hkeep hz)
  · obtain ⟨q, rfl | h | ⟨a, p, hp, h⟩⟩ := step_next h
    · simp [hs] at ht
    · obtain ⟨-, -, -, hsame, -⟩ := engineStep_hostSide h
      simp [hsame, hs] at ht
    · obtain ⟨⟨hbusy, hact⟩, hprog⟩ := hostAct_hazard h hs ht
      rw [hprog, hp]
      refine ⟨hbusy, ?_⟩
      obtain ⟨w, rfl⟩ | ⟨addr, n, rfl, hlive⟩ | ⟨addr, bs, rfl, hlive⟩ := hact
      · exact .inl ⟨w, rfl⟩
      · exact .inr (.inl ⟨addr, n, rfl, hlive⟩)
      · exact .inr (.inr ⟨addr, bs, rfl, hlive⟩)

/-- Settles O11: outside DECODING by the updates of a command, in DECODING by those of the pixel loop. -/
theorem workingRegistersUnreadBeforeWritten : Obligations.WorkingRegistersUnreadBeforeWritten := by
  refine ⟨fun s w hs => ?_, fun s x hs hr => ?_⟩
  · have hin : SameInputs s { s with work := w } := ⟨rfl, rfl, rfl, rfl, rfl⟩
    obtain hidle | hpend : s.eState = .idle ∨ s.eState = .pending := by
      cases h : s.eState with
      | idle => exact .inl rfl
      | pending => exact .inr rfl
      | decoding => exact absurd h hs
    · rw [engineStep_idle hidle, engineStep_idle (s := { s with work := w }) hidle]
      have hhidden : hideWork { s with work := w } = hideWork s := by simp [hideWork, hidle]
      exact congrArg Host.Outcome.next hhidden
    · obtain ⟨h1, h2⟩ | ⟨f, hf, h1, h2⟩ := engineStep_pending_agree hpend hin fun _ => rfl <;> rw [h1, h2]
      exact congrArg Host.Outcome.next (hf.hideWork s w)
  · have hin : SameInputs s { s with work := { s.work with idx := x } } := ⟨rfl, rfl, rfl, rfl, rfl⟩
    obtain ⟨e, h1, h2⟩ | ⟨f, hf, h1, h2⟩ := engineStep_decoding_agree hs hin ⟨x, rfl, fun h => absurd hr h⟩ <;>
      rw [h1, h2]
    refine congrArg Host.Outcome.next ?_
    cases hf with
    | complete => rfl
    | raise e c => simp [raisePixel_idx]
    | pixel a bs w => rfl

/-- Settles O12, by what each Host action of an idle block leaves of the latched operands. -/
theorem latchedOperandsUnreadWhileIdle : Obligations.LatchedOperandsUnreadWhileIdle := by
  intro a s l o h
  obtain hsame | ⟨t, h1, h2, ht⟩ := hostAct_latched_idle h a l o
  · rw [hsame]
  · rw [h1, h2]
    simp [mapNext, ht]

/-- Settles O30: the frame of each update a command makes. -/
theorem commandFrame : Obligations.CommandFrame := by
  intro i s t hi h
  obtain ⟨h1, -⟩ | ⟨f, hf, h1, -⟩ := exec_command_agree hi (s := s) ⟨rfl, rfl, rfl, rfl, rfl⟩ (fun _ => rfl) <;>
    rw [h1] at h
  · cases h
  · obtain rfl := next_inj.1 h
    cases hf with
    | raise e => simp [hostSideSame, memSame]
    | load c => simp [hostSideSame, memSame]
    | start k v f => simp [hostSideSame, memSame, startWork]
    | clear => simp [hostSideSame, memSame]

/-- Settles O49, by the agent whose step it is. -/
theorem everyStepKeepsTheInvariant : Obligations.EveryStepKeepsTheInvariant := by
  intro s t hinv h
  obtain ⟨q, rfl | h | ⟨a, p, -, h⟩⟩ := step_next h
  · exact hinv.frame hinv.mem_wf
  · exact (hinv.frame (q := q) hinv.mem_wf).engineStep h
  · exact (hinv.frame (q := q) (p := p) hinv.mem_wf).hostAct h

/-- Settles O50: with the invariant the Engine never stops the machine, and a Host action stops it in two ways only. -/
theorem onlyHostAccessesStopTheMachine : Obligations.OnlyHostAccessesStopTheMachine := by
  intro s hinv
  have hhost : ∀ q, hostMoves s → step s = hostStep { s with turns := q } →
      (∃ t, step s = .next t) ∨
      (step s = .fault .hostAddress ∧ hostMoves s ∧ ∃ a rest, s.hostProgram = a :: rest ∧ pastMemory s a) ∨
      (step s = .refused .registerAccess ∧ hostMoves s ∧ ∃ a rest, s.hostProgram = a :: rest ∧ refusedAccess s a) := by
    intro q hmoves hstep
    obtain ⟨-, h1⟩ | ⟨a, p, hp, h1⟩ := hostStep_cases { s with turns := q } <;> rw [hstep, h1]
    · exact .inl ⟨_, rfl⟩
    · obtain hnext | ⟨h2, hpast⟩ | ⟨h2, href⟩ := hostAct_answers a { s with turns := q, hostProgram := p }
      · exact .inl hnext
      · exact .inr (.inl ⟨h2, hmoves, a, p, hp, hpast⟩)
      · exact .inr (.inr ⟨h2, hmoves, a, p, hp, href⟩)
  obtain ⟨q, -, h1⟩ | ⟨q, hq, h1⟩ | ⟨-, -, hfree, h1⟩ | ⟨hq, hno, h1⟩ := step_cases s
  · rw [h1]
    obtain ⟨-, h2⟩ | ⟨hfree, h2⟩ := engineTurn_cases { s with turns := q } <;> rw [h2]
    · exact .inl ⟨_, rfl⟩
    · exact .inl ((hinv.frame (q := q) hinv.mem_wf).engine_answers.resolve_right hfree)
  · exact hhost q (.inl ⟨q, hq⟩) h1
  · rw [h1]
    refine .inl (hinv.engine_answers.resolve_right fun hrefused => ?_)
    simp [(engineStuck_iff s).2 hrefused] at hfree
  · exact hhost s.turns (.inr ⟨hq, hno.imp_right (engineStuck_iff s).1⟩) h1

/-- Settles O1: the values of the reset state, and what its registers read. -/
theorem resetLeavesTheSpecValues : Obligations.ResetLeavesTheSpecValues := by
  refine ⟨rfl, rfl, rfl, rfl, rfl, rfl, rfl, fun k hk => ?_⟩
  have hok : regAccessOk (8 * k) 64 = true := regAccessOk_iff.2 ⟨rfl, by omega, by omega⟩
  simp only [hostAct, if_pos hok, readReg_reset]

/-- Settles O4, offset by offset. -/
theorem registerMapReadsState : Obligations.RegisterMapReadsState := fun s =>
  ⟨rfl, rfl, rfl, rfl, rfl, rfl, rfl, rfl, rfl, rfl, rfl, rfl, rfl, rfl, rfl, rfl,
    BitVec.toNat_ofNat s.ctxs.length 64, rfl, rfl⟩

/-- Settles O7: both uses of the word read its OP field only. -/
theorem commandWordHighBitsIgnored : Obligations.CommandWordHighBitsIgnored := by
  intro w w' h
  have hop := opField_congr h
  exact ⟨by simp only [decode, hop], fun s => congrArg Host.Outcome.next (accept_congr hop s)⟩

/-- Settles O16, word by word. -/
theorem wordsWrittenOutDecode : Obligations.WordsWrittenOutDecode := by
  unfold Obligations.WordsWrittenOutDecode
  decide

/-- Settles O46: the Engine's turn takes the command E_OP names, and a CMD write puts the word's OP there. -/
theorem stepRunsTheDecodedCommand : Obligations.StepRunsTheDecodedCommand := by
  have hturn : ∀ (s : State) (rest : List Agent), s.turns = .engine :: rest → s.eState = .pending →
      step s = turnAnswer { s with turns := rest } (exec (decodeOp s.eOp) { s with turns := rest }) := by
    intro s rest ht hs
    rw [step_engine ht, engineTurn_eq_turnAnswer, engineStep_pending (s := { s with turns := rest }) hs]
  refine ⟨fun s t w i rest hidle hi h => ?_, hturn⟩
  cases hi
  obtain rfl : latch w s = t := (accept_idle hidle).symm.trans (next_inj.1 h)
  exact hturn { latch w s with turns := .engine :: rest } rest rfl rfl

/-- Settles O48, by the lemma on the reset state. -/
theorem invariantHoldsAtReset : Obligations.InvariantHoldsAtReset := inv_reset

end Sys2Proof.Proofs.BlockState
end

section
/-! Proofs of the statements of 20_memory.md and what they need: the Engine's requests that host memory refuses, and what
an Engine step reads and writes of host memory. -/

namespace Sys2Proof.Machine

open Sys2Proof.Claims

/-! ### Requests that host memory refuses -/

/-- A LOAD of which host memory refuses a read has no step (R53, R101). -/
theorem execLoad_refused {s : State} (h3 : s.latched.palLen.toNat % 3 = 0)
    (h : hmemAdmit s.platform s.latched.palBase.toNat s.latched.palLen.toNat .read = false ∨
      hmemAdmit s.platform s.latched.blobBase.toNat s.latched.blobLen.toNat .read = false) :
    execLoad s = .fault .hostMemoryRefused := by
  obtain ⟨hn, -⟩ | ⟨-, -, hrefused⟩ | ⟨-, hpal, hblob, -⟩ := execLoad_cases s
  · exact absurd h3 hn
  · exact hrefused
  · simp [hpal, hblob] at h

/-- The fetch part finds a pixel when a pair it fetches has pixels; its index is that of the pair fetched, or else IDX
(R181, R182). -/
theorem loadRun_of_good {w : Work} {l p : Byte} {n : Nat} (hfetch : w.rem = 0 → l ≠ 0 ∧ p.toNat < n)
    (hrest : w.rem ≠ 0 → w.idx.toNat < n) : ∃ w', loadRun l p w = .ok w' ∧ w'.idx.toNat < n := by
  obtain ⟨hr, hl, -⟩ | ⟨hr, -, hw⟩ | ⟨hr, hw⟩ := loadRun_cases l p w
  · exact absurd hl (hfetch hr).1
  · exact ⟨_, hw, (hfetch hr).2⟩
  · exact ⟨_, hw, hrest hr⟩

/-- A pixel step with no error whose write host memory refuses has no step (R53, R181). -/
theorem pixelStep_refused {s : State} {v : Context} {w : Work} {l p : Byte} (hv : s.ctxs[s.work.ctxIndex]? = some v)
    (hl : loadRun l p s.work = .ok w) (hp : w.idx.toNat < v.palCount)
    (ha : hmemAdmit s.platform (pixelAddr s.latched s.work.pixel) 4 .write = false) :
    pixelStep l p s = .fault .hostMemoryRefused := by
  have hlen : (pixelBytes (paletteEntry v w.idx)).length = 4 := rfl
  rw [← (loadRun_ok hl).1] at ha
  simp [pixelStep, hv, hl, Nat.not_le.2 hp, hmemWrite, hlen, ha]

/-- A request past the last byte of host memory is always refused (R53). -/
theorem hmemAdmit_past {a n : Nat} (h : 2 ^ 64 < a + n) (p : Config.Platform) (kind : Config.AccessKind) :
    hmemAdmit p a n kind = false :=
  Bool.eq_false_iff.2 fun hadmit => Nat.not_le.2 h (hmemAdmit_bound hadmit)

/-- On its turn a refused Engine passes (R53, R218; notes/assumptions/6.md). -/
theorem step_engine_refused {s : State} {rest : List Agent} (ht : s.turns = .engine :: rest)
    (h : engineStep { s with turns := rest } = .fault .hostMemoryRefused) :
    step s = .next { s with turns := rest } := by
  rw [step_engine ht, engineTurn_eq_turnAnswer, h]
  rfl

/-- STATUS.BUSY reads 1 while a command runs (R26). -/
theorem statusWord_busy {s : State} (h : s.eState ≠ .idle) : (statusWord s).getLsbD 0 = true := by
  simp [statusWord_getLsbD, busy, h]

/-! ### What an Engine step reads and writes of host memory -/

/-- A pixel-loop error does not read host memory: it keeps it, or writes the window of R162 over it. -/
theorem raisePixel_setMem (e : CmdError) (c : Nat) (s : State) (m : Memory) :
    { raisePixel e c { s with mem := m } with mem := [] } = { raisePixel e c s with mem := [] } := by
  unfold raisePixel spoilDest
  dsimp only
  split <;> rfl

/-- The updates of a command do not read host memory: LOAD's context is made of the bytes read before (R101). -/
theorem CommandUpdate.setMem {i : Instr} {f : State → State} (hf : CommandUpdate i f) (s : State) (m : Memory) :
    f { s with mem := m } = { f s with mem := m } := by
  cases hf <;> rfl

/-- The updates of a DECODE do not read host memory; what they leave there is set aside. -/
theorem PixelUpdate.setMem {f : State → State} (hf : PixelUpdate f) (s : State) (m : Memory) :
    { f { s with mem := m } with mem := [] } = { f s with mem := [] } := by
  cases hf with
  | complete => rfl
  | raise e c => exact raisePixel_setMem e c s m
  | pixel a bs w => rfl

/-- Outside a pending LOAD an Engine step does not read host memory (R50). -/
theorem engineStep_setMem {s : State} (h : ¬(s.eState = .pending ∧ s.eOp = 1)) (m : Memory) :
    mapNext (fun t => { t with mem := [] }) (engineStep { s with mem := m }) =
      mapNext (fun t => { t with mem := [] }) (engineStep s) := by
  have hin : SameInputs s { s with mem := m } := ⟨rfl, rfl, rfl, rfl, rfl⟩
  obtain ⟨e, h1, h2⟩ | ⟨f, hf, h1, h2⟩ := engineStep_agree hin (fun hs ho => absurd ⟨hs, ho⟩ h)
    ⟨s.work.idx, rfl, fun _ => rfl⟩ <;> rw [h1, h2]
  refine congrArg Host.Outcome.next ?_
  obtain rfl | ⟨i, hf⟩ | hf := hf
  · rfl
  · exact congrArg (fun t : State => { t with mem := [] }) (hf.setMem s m)
  · exact hf.setMem s m

/-- Outside DECODING an Engine step does not write host memory (R50). -/
theorem engineStep_mem {s t : State} (h : engineStep s = .next t) (hs : s.eState ≠ .decoding) : t.mem = s.mem := by
  cases he : s.eState with
  | idle =>
    rw [engineStep_idle he] at h
    rw [next_inj.1 h]
  | pending =>
    obtain ⟨e, -, -, -, rfl⟩ | ⟨-, c, rfl⟩ | ⟨-, v, f, -, rfl⟩ | ⟨-, rfl⟩ := engineStep_pending_next he h
    · exact raise_mem ..
    · exact loadContext_mem ..
    · rfl
    · exact complete_mem _
  | decoding => exact absurd he hs

end Sys2Proof.Machine

namespace Sys2Proof.Proofs.HostMemory

open Sys2Proof.Machine Sys2Proof.Claims

/-- Settles O14: the refused LOAD, the refused pixel step, the requests past the last byte, and the turn that passes. -/
theorem refusedRequestLeavesTheEngineStuck : Obligations.RefusedRequestLeavesTheEngineStuck := by
  refine ⟨fun s h3 h => execLoad_refused h3 h, fun s v l p hv hfetch hrest ha => ?_,
    fun p a n kind h => hmemAdmit_past h p kind, fun s rest ht hbusy h => ?_⟩
  · obtain ⟨w, hl, hp⟩ := loadRun_of_good hfetch hrest
    exact pixelStep_refused hv hl hp ha
  · exact ⟨_, step_engine_refused ht h, rfl, statusWord_busy (s := { s with turns := rest }) hbusy⟩

/-- Settles O15, by what an Engine step reads, and what it writes outside DECODING. -/
theorem engineUsesOfHostMemory : Obligations.EngineUsesOfHostMemory :=
  ⟨fun _ m h => engineStep_setMem h m, fun _ _ h hs a => by rw [engineStep_mem h hs]⟩

end Sys2Proof.Proofs.HostMemory
end

section
/-! Proofs of the statements of 30_encoding.md and what they need: the fields of a run pair, the runs of a FILL, a
container's bytes read back field by field, the reserved commands, and WAIT. -/

namespace Sys2Proof.Machine

open Sys2Proof.Claims

/-! ### Run pairs -/

/-- The two bytes of a 16-bit little-endian value are its low and its high field (R75). -/
theorem pair_fields {p : BitVec 16} {l x : Byte} (h : p.toNat = l.toNat + 256 * x.toNat) :
    p.extractLsb' 0 8 = l ∧ p.extractLsb' 8 8 = x := by
  have hl := l.isLt
  have hx := x.isLt
  refine ⟨BitVec.eq_of_toNat_eq ?_, BitVec.eq_of_toNat_eq ?_⟩
  · rw [BitVec.extractLsb'_toNat, Nat.shiftRight_zero, h]
    omega
  · rw [BitVec.extractLsb'_toNat, Nat.shiftRight_eq_div_pow, h]
    omega

/-- Fewer than two bytes are no run pair (R184). -/
theorem decode_short {bytes : List Byte} (h : bytes.length < 2) : decode (.stream bytes) = .error .truncatedPair := by
  match bytes with
  | [] => rfl
  | [_] => rfl
  | _ :: _ :: rest => simp only [List.length_cons] at h; omega

/-! ### FILL -/

/-- The runs of a FILL: full ones only, or full ones and a shorter one that is not empty (R82). -/
theorem fill_cases (n : Nat) (p : Byte) :
    (n % 255 = 0 ∧ fill n p = List.replicate (n / 255) (.run 255 p)) ∨
    (n % 255 ≠ 0 ∧ (BitVec.ofNat 8 (n % 255)).toNat = n % 255 ∧
      fill n p = List.replicate (n / 255) (.run 255 p) ++ [.run (BitVec.ofNat 8 (n % 255)) p]) := by
  by_cases h : n % 255 = 0
  · exact .inl ⟨h, by simp [fill, h]⟩
  · exact .inr ⟨h, by rw [BitVec.toNat_ofNat]; omega, by simp [fill, h]⟩

/-- A line emits the run pairs its container source stands for (R81, R82). -/
theorem pairs_eq_linePairs : StreamItem.pairs = linePairs := by
  funext item
  cases item with
  | run l p => rfl
  | bytes raw => rfl
  | fill n p => obtain ⟨h, hf⟩ | ⟨h, -, hf⟩ := fill_cases n p <;> simp [StreamItem.pairs, linePairs, hf, h]

/-- A line appends the bytes its container source stands for (R75, R81, R82). -/
theorem encoded_eq_lineBytes : StreamItem.encoded = lineBytes := by
  funext item
  cases item with
  | run l p => rfl
  | bytes raw => rfl
  | fill n p =>
    have hrun (l : Byte) : streamBytes (.run l p) = [l, p] := rfl
    obtain ⟨h, hf⟩ | ⟨h, -, hf⟩ := fill_cases n p <;>
      simp [StreamItem.encoded, lineBytes, hf, h, hrun, List.flatMap]

/-! ### Container bytes read back -/

/-- Byte `j` of item `k` in a sequence of items of `n` bytes each. -/
theorem byteAt_flatMap {α : Type} {f : α → List Byte} {n : Nat} (hf : ∀ x, (f x).length = n) (xs : List α)
    (tail : List Byte) {k j : Nat} (hk : k < xs.length) (hj : j < n) :
    byteAt (xs.flatMap f ++ tail) (n * k + j) = byteAt (f xs[k]) j := by
  unfold byteAt
  induction xs generalizing k with
  | nil => cases hk
  | cons x xs ih =>
    rw [List.flatMap_cons, List.append_assoc]
    cases k with
    | zero =>
      rw [Nat.mul_zero, Nat.zero_add]
      exact List.getD_append _ _ _ _ ((hf x).symm ▸ hj)
    | succ k =>
      have hoff : n * (k + 1) + j - (f x).length = n * k + j := by rw [hf, Nat.mul_succ]; omega
      rw [List.getD_append_right _ _ _ _ (by rw [hf, Nat.mul_succ]; omega), hoff]
      exact ih (Nat.lt_of_succ_lt_succ hk)

/-- The little-endian value of a field's four bytes is the field (R11, R70). -/
theorem field_u32Bytes (v : U32) : field (u32Bytes v) 0 = v := by
  apply BitVec.eq_of_toNat_eq
  have hv := v.isLt
  simp only [field, u32le, u32Bytes, byteAt, List.getD_cons_zero, List.getD_cons_succ, BitVec.toNat_ofNat,
    BitVec.extractLsb'_toNat, Nat.shiftRight_eq_div_pow]
  omega

/-- Field `k` of a sequence of 32-bit fields (R70). -/
theorem field_words (ws : List U32) (tail : List Byte) {k : Nat} (hk : k < ws.length) :
    field (ws.flatMap u32Bytes ++ tail) (4 * k) = ws[k] := by
  have hbyte {j : Nat} (hj : j < 4) := byteAt_flatMap (f := u32Bytes) (fun _ => rfl) ws tail hk hj
  have h0 := hbyte (j := 0) (by decide)
  rw [Nat.add_zero] at h0
  calc field (ws.flatMap u32Bytes ++ tail) (4 * k)
      = field (u32Bytes ws[k]) 0 := by
        unfold field u32le
        rw [h0, hbyte (by decide), hbyte (by decide), hbyte (by decide)]
    _ = ws[k] := field_u32Bytes _

/-- The frame offsets are as many as the frames (R81). -/
@[simp] theorem frameOffsets_length (n : Nat) (fs : List (List StreamItem)) :
    (frameOffsets n fs).length = fs.length := by
  induction fs generalizing n with
  | nil => rfl
  | cons f fs ih => simp [frameOffsets, ih]

/-- The offset of a frame is the number of run pairs before it, in 32 bits (R81; notes/assumptions/21.md). -/
theorem frameOffsets_getD (n : Nat) {fs : List (List StreamItem)} {k : Nat} (hk : k < fs.length) :
    (frameOffsets n fs).getD k 0 = BitVec.ofNat 32 (n + ((fs.take k).flatten.map StreamItem.pairs).sum) := by
  induction fs generalizing n k with
  | nil => cases hk
  | cons f fs ih =>
    cases k with
    | zero => rfl
    | succ k =>
      rw [frameOffsets, List.getD_cons_succ, ih _ (Nat.lt_of_succ_lt_succ hk)]
      simp [Nat.add_assoc]

/-- The 32-bit fields of a source's blob: the header's four, then the offset table (R70). -/
def Source.words (c : Source) : List U32 :=
  [c.width, c.height, c.fps, BitVec.ofNat 32 c.frames.length] ++ c.offsets

/-- A blob is its 32-bit fields, then its stream (R70). -/
theorem Source.blob_eq (c : Source) : c.blob = c.words.flatMap u32Bytes ++ c.rle := by
  simp [Source.blob, Source.words]

/-- Header and offset table have one field for each of the header's four and for each frame (R70). -/
theorem Source.words_length (c : Source) : c.words.length = c.frames.length + 4 := by
  simp [Source.words, Source.offsets]

/-- Header and offset table of a blob are as long as R103 says. -/
theorem Source.words_bytes_length (c : Source) : (c.words.flatMap u32Bytes).length = headerLen c.frames.length := by
  have hlen (w : U32) : (u32Bytes w).length = 4 := rfl
  simp only [List.length_flatMap, hlen, List.map_const', List.sum_replicate, c.words_length, smul_eq_mul, headerLen,
    Config.headerBytes, Config.offsetEntryBytes]
  omega

/-- The container parser finds the fields of a source in its blob (R70, R104). -/
theorem Source.field_blob (c : Source) {k : Nat} (hk : k < c.frames.length + 4) :
    field c.blob (4 * k) = c.words[k]'(c.words_length.symm ▸ hk) := by
  rw [c.blob_eq]
  exact field_words _ _ _

/-- The parser's offset table of a blob is the source's frame offsets (R104). -/
theorem Source.offsetTable_blob (c : Source) : offsetTable c.blob c.frames.length = c.offsets := by
  refine List.ext_getElem (by simp [offsetTable, Source.offsets]) fun k hk _ => ?_
  have hk : k < c.frames.length := by simpa [offsetTable] using hk
  have hfield : field c.blob (4 * (k + 4)) = c.offsets[k] := c.field_blob (by omega)
  rw [show 4 * (k + 4) = 16 + 4 * k by omega] at hfield
  simp only [offsetTable, List.getElem_map, List.getElem_range, hfield]

/-- Entry `k` of the palette bytes is the source's (R74). -/
theorem Source.colorAt_paletteBytes (c : Source) {k : Nat} (hk : k < c.palette.length) :
    colorAt c.paletteBytes k = c.palette[k] := by
  have hbyte {j : Nat} (hj : j < 3) :=
    byteAt_flatMap (f := fun k : Color => [k.r, k.g, k.b]) (fun _ => rfl) c.palette [] hk hj
  simp only [List.append_nil] at hbyte
  have h0 := hbyte (j := 0) (by decide)
  rw [Nat.add_zero] at h0
  unfold colorAt Source.paletteBytes
  rw [h0, hbyte (by decide), hbyte (by decide)]
  rfl

/-- The palette bytes are three for each entry (R74). -/
theorem Source.paletteBytes_length (c : Source) : c.paletteBytes.length = 3 * c.palette.length := by
  simp [Source.paletteBytes, List.length_flatMap, Nat.mul_comm]

/-- The palette made of a source's palette bytes is the source's, then black (R35, R108). -/
theorem Source.buildPalette_paletteBytes (c : Source) (h : c.palette.length ≤ 256) :
    buildPalette c.paletteBytes c.palette.length =
      c.palette ++ List.replicate (256 - c.palette.length) Color.black := by
  refine List.ext_getElem (by simp [buildPalette]; omega) fun k _ _ => ?_
  by_cases hk : k < c.palette.length
  · simp [buildPalette, hk, c.colorAt_paletteBytes hk]
  · simp [buildPalette, hk, List.getElem_append_right (Nat.not_lt.1 hk)]

/-- What the container parser makes of a source (R70, R74, R81, R102). -/
theorem Source.parse_blob (c : Source) (hf : c.frames.length < 2 ^ 32) (hp : c.palette.length ≤ 256) :
    parse c.paletteBytes c.blob c.blob.length = .ok {
      width := c.width, height := c.height, fps := c.fps, frameCount := BitVec.ofNat 32 c.frames.length,
      offsets := c.offsets, rle := c.rle,
      pal := c.palette ++ List.replicate (256 - c.palette.length) Color.black, palCount := c.palette.length } := by
  have hcount : field c.blob 12 = BitVec.ofNat 32 c.frames.length := c.field_blob (k := 3) (by omega)
  have hframes : (field c.blob 12).toNat = c.frames.length := by
    rw [hcount, BitVec.toNat_ofNat, Nat.mod_eq_of_lt hf]
  have hpal : c.paletteBytes.length / 3 = c.palette.length := by rw [c.paletteBytes_length]; omega
  have hlen : c.blob.length = headerLen c.frames.length + c.rle.length := by
    rw [c.blob_eq, List.length_append, c.words_bytes_length]
  have hrle : c.blob.drop (headerLen c.frames.length) = c.rle := by
    rw [c.blob_eq, ← c.words_bytes_length, List.drop_left]
  have hheader : Config.headerBytes ≤ headerLen c.frames.length := Nat.le_add_right ..
  obtain ⟨h, -⟩ | ⟨-, h, -⟩ | ⟨-, -, h, -⟩ | ⟨-, -, -, h, -⟩ | ⟨-, -, -, -, h⟩ :=
    parse_cases c.paletteBytes c.blob c.blob.length
  · omega
  · rw [hframes] at h; omega
  · exact absurd rfl h
  · rw [hpal] at h; exact absurd h (Nat.not_lt.2 hp)
  · have hwidth : field c.blob 0 = c.width := c.field_blob (k := 0) (by omega)
    have hheight : field c.blob 4 = c.height := c.field_blob (k := 1) (by omega)
    have hfps : field c.blob 8 = c.fps := c.field_blob (k := 2) (by omega)
    rw [h, parsedContext, hframes, hpal, hrle, c.offsetTable_blob, c.buildPalette_paletteBytes hp, hcount, hwidth,
      hheight, hfps]

/-! ### Reserved commands and WAIT -/

/-- The OP values R78 reserves name no other command. -/
theorem decodeOp_reserved {op : Op} (h : op = 0 ∨ 4 ≤ op.toNat) : decodeOp op = .cmdReserved op := by
  obtain ⟨rfl, -⟩ | ⟨rfl, -⟩ | ⟨rfl, -⟩ | ⟨-, -, -, hop⟩ := decodeOp_cases op
  · exact absurd h (by decide)
  · exact absurd h (by decide)
  · exact absurd h (by decide)
  · exact hop

/-- A reserved command ends in BadCommand (R78 item 1). -/
theorem exec_cmdReserved (op : Op) (s : State) : exec (.cmdReserved op) s = .next (errorEnd 10 s) := rfl

/-- STATUS.DONE is bit 1 of the word the Host reads (R26). -/
theorem readReg_status_done (s : State) : (readReg s 0x08).getLsbD 1 = s.done := by
  rw [show readReg s 0x08 = statusWord s from rfl, statusWord_getLsbD]
  simp

/-- WAIT records the STATUS word and is again the Host's next action until DONE is 1 (R81). -/
theorem hostAct_wait (s : State) :
    hostAct .wait s = .next { s with
      lastRead := .word (readReg s 0x08)
      hostProgram := if s.done then s.hostProgram else .wait :: s.hostProgram } := by
  simp only [hostAct, readReg_status_done]

end Sys2Proof.Machine

namespace Sys2Proof.Proofs.Encoding

open Sys2Proof.Machine Sys2Proof.Claims

/-- Settles O20: the parser's context, with the offsets and the stream line by line. -/
theorem parseReadsTheAssembledSource : Obligations.ParseReadsTheAssembledSource := by
  intro c hf hp
  refine ⟨_, c.parse_blob hf hp, rfl, rfl, rfl, ?_, frameOffsets_length .., fun k hk => ?_, ?_, rfl, rfl⟩
  · exact (BitVec.toNat_ofNat ..).trans (Nat.mod_eq_of_lt hf)
  · rw [← pairs_eq_linePairs, Source.offsets, frameOffsets_getD _ hk, BitVec.toNat_ofNat, List.map_append,
      List.sum_append]
  · rw [← encoded_eq_lineBytes]
    rfl

/-- Settles O18: the two bytes are the value's fields, and RUN_ZERO is matched first. -/
theorem runPairFields : Obligations.RunPairFields := by
  refine ⟨fun p l x rest h => ?_, fun bytes h => decode_short h⟩
  have hpair : decode (.stream (l :: x :: rest)) = .ok (decodePair l x) := rfl
  obtain ⟨hl, hx⟩ := pair_fields h
  rw [hpair, decodePair, hl, hx]
  rfl

/-- Settles O19, with and without a last run shorter than 255. -/
theorem fillExpansion : Obligations.FillExpansion := by
  intro n p
  have hfull : (255 : Byte).toNat = 255 := rfl
  obtain ⟨hn, hf⟩ | ⟨hn, hr, hf⟩ := fill_cases n p
  · refine ⟨.inl ⟨hf, hn⟩, fun i hi => ?_, ?_⟩
    · rw [hf] at hi
      exact ⟨255, List.eq_of_mem_replicate hi, by decide⟩
    · simp only [hf, List.map_replicate, List.sum_replicate, smul_eq_mul, hfull]
      omega
  · have hzero : BitVec.ofNat 8 (n % 255) ≠ 0 := fun h => hn (hr.symm.trans (congrArg BitVec.toNat h))
    refine ⟨.inr ⟨_, hr, hzero, hf⟩, fun i hi => ?_, ?_⟩
    · rw [hf, List.mem_append, List.mem_singleton] at hi
      obtain hi | hi := hi
      · exact ⟨255, List.eq_of_mem_replicate hi, by decide⟩
      · exact ⟨_, hi, hzero⟩
    · simp only [hf, List.map_append, List.map_replicate, List.map_singleton, List.sum_append, List.sum_replicate,
        List.sum_singleton, smul_eq_mul, hfull, hr]
      omega

/-- Settles O27: a pending reserved OP names CMD_RESERVED. -/
theorem reservedCommandIsBadCommand : Obligations.ReservedCommandIsBadCommand := by
  refine ⟨exec_cmdReserved, fun s hs hop => ?_⟩
  rw [engineStep_pending hs, decodeOp_reserved hop, exec_cmdReserved]

/-- Settles O45: WAIT goes by the DONE bit of the word it reads. -/
theorem waitPollsDone : Obligations.WaitPollsDone := by
  intro s rest h
  rw [hostStep_cons h, hostAct_wait]
  rfl

end Sys2Proof.Proofs.Encoding
end

section
/-! Proofs of the statements of 40_context_load.md and what they need: the bytes a LOAD reads and the context made of
them, its outcomes in the order of R213, and the handles of a store with one more context. -/

namespace Sys2Proof.Machine

open Sys2Proof.Claims

/-! ### Fields of the bytes read from host memory -/

/-- A byte of the bytes read is the byte of host memory at its address (R11). -/
theorem byteAt_read {m : Memory} {a n o : Nat} (h : o < n) : byteAt (Memory.read m a n) o = Memory.get m (a + o) :=
  Memory.read_getD h

/-- A 32-bit field of the bytes read is the little-endian value in host memory (R11, R70). -/
theorem field_read {m : Memory} {a n o : Nat} (h : o + 4 ≤ n) :
    (field (Memory.read m a n) o).toNat = memU32 m (a + o) := by
  have hlt (x : Nat) := (Memory.get m x).isLt
  have h0 := hlt (a + o)
  have h1 := hlt (a + o + 1)
  have h2 := hlt (a + o + 2)
  have h3 := hlt (a + o + 3)
  rw [field, u32le, byteAt_read (by omega), byteAt_read (by omega), byteAt_read (by omega), byteAt_read (by omega),
    BitVec.toNat_ofNat]
  unfold memU32
  simp only [← Nat.add_assoc]
  omega

/-- Entry `k` of the palette bytes read (R74). -/
theorem colorAt_read {m : Memory} {a n k : Nat} (h : 3 * k + 3 ≤ n) :
    colorAt (Memory.read m a n) k =
      ⟨Memory.get m (a + 3 * k), Memory.get m (a + 3 * k + 1), Memory.get m (a + 3 * k + 2)⟩ := by
  rw [colorAt, byteAt_read (by omega), byteAt_read (by omega), byteAt_read (by omega)]
  rfl

/-- Entry `k` of the offset table is its field of the blob (R104). -/
theorem offsetTable_getD (blob : List Byte) {fc k : Nat} (h : k < fc) :
    (offsetTable blob fc).getD k 0 = field blob (16 + 4 * k) := by
  simp [offsetTable, List.getD_eq_getElem?_getD, List.getElem?_range h]

/-- A palette made of `n` entries has those of the palette bytes first (R74, R108). -/
theorem buildPalette_getD_supplied (pal : List Byte) {n k : Nat} (h : k < n) (hk : k < Config.paletteCapacity) :
    (buildPalette pal n).getD k Color.black = colorAt pal k := by
  simp [buildPalette, List.getD_eq_getElem?_getD, List.getElem?_range hk, h]

/-! ### What a LOAD reads -/

/-- The palette bytes a LOAD reads (R101). -/
def loadPalette (s : State) : List Byte := Memory.read s.mem s.latched.palBase.toNat s.latched.palLen.toNat

/-- The blob a LOAD reads (R101). -/
def loadBlob (s : State) : List Byte := Memory.read s.mem s.latched.blobBase.toNat s.latched.blobLen.toNat

@[simp] theorem loadPalette_length (s : State) : (loadPalette s).length = s.latched.palLen.toNat :=
  Memory.read_length ..

@[simp] theorem loadBlob_length (s : State) : (loadBlob s).length = s.latched.blobLen.toNat :=
  Memory.read_length ..

/-- The frame count of the blob a LOAD reads (R70). -/
theorem field_loadBlob_frameCount {s : State} (h : 16 ≤ s.latched.blobLen.toNat) :
    (field (loadBlob s) 12).toNat = loadFrameCount s := field_read h

/-- The header and offset table of the blob a LOAD reads (R103). -/
theorem headerLen_loadBlob {s : State} (h : 16 ≤ s.latched.blobLen.toNat) :
    headerLen (field (loadBlob s) 12).toNat = loadHeader s := by
  rw [field_loadBlob_frameCount h]
  rfl

/-- The context a LOAD whose checks pass makes (R102). -/
def loadedContext (s : State) : Context := parsedContext (loadPalette s) (loadBlob s)

/-- The stream of the new context is as long as the blob after its header and offset table (R107). -/
theorem loadedContext_rle_length {s : State} (h : 16 ≤ s.latched.blobLen.toNat) :
    (loadedContext s).rle.length = s.latched.blobLen.toNat - loadHeader s := by
  rw [loadedContext, parsedContext, List.length_drop, loadBlob_length, headerLen_loadBlob h]

/-- Byte `k` of the new context's stream is that of the blob after its header and offset table (R107). -/
theorem loadedContext_rle_getD {s : State} (h : 16 ≤ s.latched.blobLen.toNat) {k : Nat}
    (hk : k < s.latched.blobLen.toNat - loadHeader s) :
    (loadedContext s).rle.getD k 0 = Memory.get s.mem (s.latched.blobBase.toNat + loadHeader s + k) := by
  have hbyte : byteAt (loadBlob s) (loadHeader s + k) = _ := byteAt_read (by omega)
  rw [loadedContext, parsedContext, headerLen_loadBlob h, List.getD_eq_getElem?_getD, List.getElem?_drop,
    ← List.getD_eq_getElem?_getD, Nat.add_assoc]
  exact hbyte

/-- Entry `k` of the new context's offset table (R104). -/
theorem loadedContext_offsets_getD {s : State} (h16 : 16 ≤ s.latched.blobLen.toNat)
    (hh : loadHeader s ≤ s.latched.blobLen.toNat) {k : Nat} (hk : k < loadFrameCount s) :
    ((loadedContext s).offsets.getD k 0).toNat = memU32 s.mem (s.latched.blobBase.toNat + 16 + 4 * k) := by
  have hin : 16 + 4 * k + 4 ≤ s.latched.blobLen.toNat := by unfold loadHeader at hh; omega
  rw [loadedContext, parsedContext, field_loadBlob_frameCount h16, offsetTable_getD _ hk, loadBlob, field_read hin,
    Nat.add_assoc]

/-! ### The outcomes of LOAD -/

/-- A capacity admits what does not exceed it (R8). -/
theorem fits_iff {n : Nat} {cap : Option Nat} : fits n cap = true ↔ ∀ c, cap = some c → n ≤ c := by
  cases cap <;> simp [fits]

/-- The capacity check admits the new context exactly when no capacity is exceeded (R102, D15). -/
theorem hasCapacity_loadedContext {s : State} (h : 16 ≤ s.latched.blobLen.toNat) :
    hasCapacity s (loadedContext s) = true ↔ loadFits s := by
  have hframes : (loadedContext s).frameCount.toNat = loadFrameCount s := field_loadBlob_frameCount h
  unfold hasCapacity loadFits
  rw [loadedContext_rle_length h, hframes, ← fits_iff, ← fits_iff]
  cases s.platform.maxContexts <;> simp [and_assoc]

/-- A palette length that is no multiple of 3 ends a LOAD before any read (R102, R213). -/
theorem exec_load_badPalette {s : State} (h : s.latched.palLen.toNat % 3 ≠ 0) :
    exec .load s = .next (errorEnd 10 s) := if_pos h

/-- Past its first check and its reads, a LOAD parses what it read (R102). -/
theorem exec_load_reads {s : State} (h : loadReads s) :
    exec .load s = .next (loadParsed (loadPalette s) (loadBlob s) s) := by
  obtain ⟨h3, hpal, hblob⟩ := h
  obtain ⟨hn, -⟩ | ⟨-, hrefused, -⟩ | ⟨-, -, -, hexec⟩ := execLoad_cases s
  · exact absurd h3 hn
  · simp [hpal, hblob] at hrefused
  · exact hexec

/-- A parse error ends the LOAD (R102, R214). -/
theorem exec_load_parse_error {s : State} {e : CmdError} (h : loadReads s)
    (hp : parse (loadPalette s) (loadBlob s) (asS64 s.latched.declaredSize) = .error e) :
    exec .load s = .next (errorEnd e.code s) := by
  rw [exec_load_reads h, loadParsed, hp]
  rfl

/-- After a parse without error, the capacities decide between CapacityExceeded and the new context (R102, R109). -/
theorem exec_load_parse_ok {s : State} {c : Context} (h : loadReads s)
    (hp : parse (loadPalette s) (loadBlob s) (asS64 s.latched.declaredSize) = .ok c) :
    exec .load s = .next (if hasCapacity s c then loadContext c s else errorEnd 11 s) := by
  rw [exec_load_reads h, loadParsed, hp]
  rfl

/-- Everything a LOAD past its first check and its reads can do, in the order of R213. -/
theorem exec_load_cases {s : State} (h : loadReads s) :
    (s.latched.blobLen.toNat < 16 ∧ exec .load s = .next (errorEnd 1 s)) ∨
    (16 ≤ s.latched.blobLen.toNat ∧
      ((s.latched.blobLen.toNat < loadHeader s ∧ exec .load s = .next (errorEnd 1 s)) ∨
      (loadHeader s ≤ s.latched.blobLen.toNat ∧
        ((asS64 s.latched.declaredSize ≠ s.latched.blobLen.toNat ∧ exec .load s = .next (errorEnd 2 s)) ∨
        (asS64 s.latched.declaredSize = s.latched.blobLen.toNat ∧
          ((256 < s.latched.palLen.toNat / 3 ∧ exec .load s = .next (errorEnd 3 s)) ∨
          (s.latched.palLen.toNat / 3 ≤ 256 ∧
            ((¬ loadFits s ∧ exec .load s = .next (errorEnd 11 s)) ∨
            (loadFits s ∧ exec .load s = .next (loadContext (loadedContext s) s)))))))))) := by
  have hcases := parse_cases (loadPalette s) (loadBlob s) (asS64 s.latched.declaredSize)
  simp only [loadBlob_length, loadPalette_length] at hcases
  obtain ⟨h1, hp⟩ | ⟨h16, h2, hp⟩ | ⟨h16, h2, h3, hp⟩ | ⟨h16, h2, h3, h4, hp⟩ | ⟨h16, h2, h3, h4, hp⟩ := hcases
  · exact .inl ⟨h1, exec_load_parse_error h hp⟩
  all_goals rw [headerLen_loadBlob h16] at h2; refine .inr ⟨h16, ?_⟩
  · exact .inl ⟨h2, exec_load_parse_error h hp⟩
  · exact .inr ⟨h2, .inl ⟨h3, exec_load_parse_error h hp⟩⟩
  · exact .inr ⟨h2, .inr ⟨h3, .inl ⟨h4, exec_load_parse_error h hp⟩⟩⟩
  · refine .inr ⟨h2, .inr ⟨h3, .inr ⟨h4, ?_⟩⟩⟩
    have hexec := exec_load_parse_ok h hp
    have hcap := hasCapacity_loadedContext h16
    by_cases hfits : loadFits s
    · exact .inr ⟨hfits, hexec.trans (congrArg _ (if_pos (hcap.2 hfits)))⟩
    · exact .inl ⟨hfits, hexec.trans (congrArg _ (if_neg (mt hcap.1 hfits)))⟩

/-- No error has the code 0 of a success (R210). -/
theorem code_ne_zero (e : CmdError) : e.code ≠ 0 := by
  cases e <;> decide

/-- What LOAD did, by the ERR it left: an error whose code is not 0, or a new context and ERR 0 (R102, R214, R215). -/
theorem exec_load_next {s t : State} (h : exec .load s = .next t) :
    (t.err ≠ 0 ∧ ∃ e, t = raise e none s) ∨ (t.err = 0 ∧ ∃ c, t = loadContext c s) := by
  obtain ⟨e, -, rfl⟩ | ⟨c, rfl⟩ := execLoad_next h
  · exact .inl ⟨raise_err .. ▸ code_ne_zero e, e, rfl⟩
  · exact .inr ⟨loadContext_err .., c, rfl⟩

/-! ### Handles -/

/-- A handle names no context exactly when it is out of range (R130, R132). -/
theorem getContext_eq_none {ctxs : List Context} {h : Int} :
    getContext ctxs h = none ↔ h < 0 ∨ (ctxs.length : Int) ≤ h := by
  unfold getContext
  split
  case isTrue hr => exact iff_of_true rfl hr
  case isFalse hr => exact iff_of_false (by rw [List.getElem?_eq_none_iff]; omega) hr

/-- A handle that names a context names the same one in a longer store (R133). -/
theorem getContext_append {ctxs : List Context} {h : Int} {v : Context} (hv : getContext ctxs h = some v)
    (more : List Context) : getContext (ctxs ++ more) h = some v := by
  obtain ⟨h0, hget⟩ := getContext_eq_some.1 hv
  obtain ⟨hlt, -⟩ := List.getElem?_eq_some_iff.1 hget
  exact getContext_eq_some.2 ⟨h0, (List.getElem?_append_left hlt).trans hget⟩

/-- The context appended has the length of the store before as its handle (R109, R131). -/
theorem getContext_append_new (ctxs : List Context) (c : Context) :
    getContext (ctxs ++ [c]) ctxs.length = some c :=
  getContext_eq_some.2 ⟨Int.natCast_nonneg _, List.getElem?_concat_length⟩

end Sys2Proof.Machine

namespace Sys2Proof.Proofs.ContextLoad

open Sys2Proof.Machine Sys2Proof.Claims

/-- Settles O21: the parser's context, field by field. -/
theorem loadCompletes : Obligations.LoadCompletes := by
  intro s hr h16 hh hd hpal hfits
  have hframes := field_loadBlob_frameCount h16
  have hexec : exec .load s = .next (loadContext (loadedContext s) s) := by
    obtain ⟨h, -⟩ | ⟨-, ⟨h, -⟩ | ⟨-, ⟨h, -⟩ | ⟨-, ⟨h, -⟩ | ⟨-, ⟨h, -⟩ | ⟨-, h⟩⟩⟩⟩⟩ := exec_load_cases hr
    · exact absurd h16 (Nat.not_le.2 h)
    · exact absurd hh (Nat.not_le.2 h)
    · exact absurd hd h
    · exact absurd hpal (Nat.not_le.2 h)
    · exact absurd hfits h
    · exact h
  have hcount : (loadedContext s).palCount = s.latched.palLen.toNat / 3 :=
    congrArg (· / 3) (loadPalette_length s)
  refine ⟨loadedContext s, hexec, field_read (by omega), field_read (by omega), field_read (by omega), hframes, ?_,
    fun k hk => loadedContext_offsets_getD h16 hh hk, loadedContext_rle_length h16,
    fun k hk => loadedContext_rle_getD h16 hk, hcount, ?_, fun k hk => ?_, fun k hk _ => buildPalette_getD _ hk⟩
  · simp [loadedContext, parsedContext, offsetTable, hframes]
  · simp [loadedContext, parsedContext, buildPalette]
  · refine (buildPalette_getD_supplied _ hk ?_).trans (colorAt_read ?_)
    · exact (hcount ▸ hk).trans_le hpal
    · rw [hcount] at hk
      omega

/-- Settles O22, along the outcomes of LOAD in the order of its checks. -/
theorem loadErrorsInOrder : Obligations.LoadErrorsInOrder := by
  refine fun s => ⟨exec_load_badPalette, fun hr => ?_⟩
  obtain ⟨h, hexec⟩ | ⟨h16, h⟩ := exec_load_cases hr
  · exact ⟨fun _ => hexec, fun h16 => absurd h (Nat.not_lt.2 h16)⟩
  refine ⟨fun h => absurd h (Nat.not_lt.2 h16), fun _ => ?_⟩
  obtain ⟨h, hexec⟩ | ⟨hh, h⟩ := h
  · exact ⟨fun _ => hexec, fun hh => absurd h (Nat.not_lt.2 hh)⟩
  refine ⟨fun h => absurd h (Nat.not_lt.2 hh), fun _ => ?_⟩
  obtain ⟨h, hexec⟩ | ⟨hd, h⟩ := h
  · exact ⟨fun _ => hexec, fun hd => absurd hd h⟩
  refine ⟨fun h => absurd hd h, fun _ => ?_⟩
  obtain ⟨h, hexec⟩ | ⟨hpal, h⟩ := h
  · exact ⟨fun _ => hexec, fun hpal => absurd h (Nat.not_lt.2 hpal)⟩
  refine ⟨fun h => absurd h (Nat.not_lt.2 hpal), fun _ hfull => ?_⟩
  obtain ⟨-, hexec⟩ | ⟨hfits, -⟩ := h
  · exact hexec
  · exact absurd hfits hfull

/-- Settles O23: an error writes none of the registers read at 0x60 to 0x90, and neither end writes host memory. -/
theorem loadIsAllOrNothing : Obligations.LoadIsAllOrNothing := by
  intro s t h
  obtain ⟨-, e, rfl⟩ | ⟨hok, c, rfl⟩ := exec_load_next h
  · exact ⟨fun _ => by rw [raise_mem], fun _ => ⟨raise_ctxs .., raise_res .., fun off hlo _ =>
      readReg_congr (by omega) (raise_args ..) (raise_res ..) (raise_ctxs ..) (raise_none_errPixel ..)
        (raise_none_errCursor ..)⟩⟩
  · exact ⟨fun _ => by rw [loadContext_mem], fun hne => absurd hok hne⟩

/-- Settles O24: the store after a successful LOAD is the one before with the new context appended. -/
theorem loadIssuesTheNextHandle : Obligations.LoadIssuesTheNextHandle := by
  intro s t h herr
  obtain ⟨hne, -⟩ | ⟨-, c, rfl⟩ := exec_load_next h
  · exact absurd herr hne
  rw [loadContext_ctxs, loadContext_res]
  refine ⟨rfl, ⟨c, getContext_eq_none.2 (.inr le_rfl), getContext_append_new _ _⟩,
    fun _ _ hv => getContext_append hv _, fun h hout => getContext_eq_none.2 (hout.imp_right fun hlt => ?_)⟩
  rw [List.length_append, List.length_singleton]
  exact_mod_cast hlt

end Sys2Proof.Proofs.ContextLoad
end

section
/-! Proofs of the statements of 41_registry.md and what they need: the state and the registers a CLEAR leaves, the empty
store, and DECODE with a handle that names no context. -/

namespace Sys2Proof.Machine

open Sys2Proof.Claims

/-! ### CLEAR -/

/-- CLEAR completes with the store empty (R135). -/
theorem exec_clear (s : State) : exec .clear s = .next (complete { s with ctxs := [] }) := rfl

/-- With an empty store VID_COUNT reads 0 (R28). -/
theorem readReg_vidCount_empty {s : State} (h : s.ctxs = []) : readReg s 0x90 = 0 := by
  rw [show readReg s 0x90 = vidCount s from rfl, vidCount, h]
  rfl

/-- After a command that completed, STATUS reads DONE alone when HAZARD is 0 (R26, R215). -/
theorem readReg_status_complete {s : State} (h : s.hazard = false) : readReg (complete s) 0x08 = 2 := by
  rw [show readReg (complete s) 0x08 = statusWord (complete s) from rfl, statusWord, busy]
  simp only [complete_eState, complete_done, complete_err, complete_hazard, h]
  rfl

/-! ### A store without the context asked for -/

/-- In an empty store every handle is out of range (R132, R136). -/
theorem getContext_empty (h : Int) : getContext [] h = none :=
  getContext_eq_none.2 (lt_or_ge h 0)

/-- A DECODE that passes the stride check with a handle that names no context ends with NotFound (R152). -/
theorem exec_decode_notFound {s : State} (hstride : s.latched.destStride = 4)
    (hget : getContext s.ctxs (asS64 s.latched.handle) = none) : exec .decode s = .next (errorEnd 9 s) := by
  have hprologue : prologue s.ctxs s.latched = .error .notFound := by simp [prologue, hstride, hget]
  rw [show exec .decode s = execDecode s from rfl, execDecode, hprologue]
  rfl

end Sys2Proof.Machine

namespace Sys2Proof.Proofs.Registry

open Sys2Proof.Machine Sys2Proof.Claims

/-- Settles O26: of the steps that change the store (O8), a successful LOAD alone leaves a context in it. -/
theorem clearedHandlesAreNotFound : Obligations.ClearedHandlesAreNotFound := by
  refine ⟨fun s t h => ?_, fun s t h hempty => ?_, fun s h hempty => ?_, fun s hempty hstride => ?_⟩
  · obtain rfl := next_inj.1 ((exec_clear s).symm.trans h)
    exact complete_ctxs _
  · obtain hsame | ⟨c, happend, -, hop, -, -, herr, -⟩ | ⟨hclear, -⟩ | ⟨-, -, -, hreset, -⟩ :=
      BlockState.contextStoreIsAppendOnly s t h
    · exact .inl (hsame.trans hempty)
    · exact .inr ⟨hop, herr, by rw [happend, hempty]; rfl⟩
    · exact .inl hclear
    · exact .inl hreset
  · rw [hempty, getContext_empty]
  · exact exec_decode_notFound hstride (by rw [hempty, getContext_empty])

/-- Settles O25: the registers the completed CLEAR shows follow from its empty store and from `complete`. -/
theorem clearEmptiesTheStore : Obligations.ClearEmptiesTheStore := fun s =>
  ⟨complete { s with ctxs := [] }, exec_clear s, rfl, readReg_vidCount_empty (complete_ctxs _), readReg_status_complete⟩

end Sys2Proof.Proofs.Registry
end

section
/-! Proofs of the statements of 42_frame_decode.md and what they need: DECODE's prologue, the Engine's steps in DECODING, what
a pixel-loop error leaves, what ERROR_DEST_POLICY decides, and the pixel loop as the function `decodeFrame`. -/

namespace Sys2Proof.Machine

open Sys2Proof.Claims

/-! ### The prologue -/

/-- A DECODE whose prologue passes starts its pixel loop (R156). -/
theorem exec_decode_ok {s : State} {v : Context} {f : Nat} (h : prologue s.ctxs s.latched = .ok (v, f)) :
    exec .decode s =
      .next { s with eState := .decoding, work := startWork (asS64 s.latched.handle).toNat v f s.work } := by
  rw [show exec .decode s = execDecode s from rfl, execDecode, h]

/-- A DECODE whose prologue fails ends with the first failed check's error (R151, R214). -/
theorem exec_decode_error {s : State} {e : CmdError} (h : prologue s.ctxs s.latched = .error e) :
    exec .decode s = .next (errorEnd e.code s) := by
  rw [show exec .decode s = execDecode s from rfl, execDecode, h]
  rfl

/-- The prologue's first check: the stride (R151). -/
theorem prologue_badStride {ctxs : List Context} {l : Operands} (h : l.destStride ≠ 4) :
    prologue ctxs l = .error .badCommand := if_pos h

/-- The prologue's four checks pass (R151 to R154). -/
theorem prologue_passes {ctxs : List Context} {l : Operands} {v : Context} {f : Nat} (hstride : l.destStride = 4)
    (hhandle : 0 ≤ asS64 l.handle) (hv : ctxs[(asS64 l.handle).toNat]? = some v) (hframe : asS64 l.frame = f)
    (hf : f < v.frameCount.toNat) (hcap : pixelCount v ≤ l.destPixels.toNat) : prologue ctxs l = .ok (v, f) :=
  prologue_ok_iff.2 ⟨hstride, getContext_eq_some.2 ⟨hhandle, hv⟩, by omega, by omega, hcap, by omega⟩

/-- The prologue past its first two checks: the frame index, then the capacity (R153, R154). -/
theorem prologue_of_context {ctxs : List Context} {l : Operands} {v : Context} (hstride : l.destStride = 4)
    (hget : getContext ctxs (asS64 l.handle) = some v) :
    prologue ctxs l =
      if asS64 l.frame < 0 ∨ (v.frameCount.toNat : Int) ≤ asS64 l.frame then .error .frameIndexOutOfRange
      else if l.destPixels.toNat < pixelCount v then .error .bufferTooSmall
      else .ok (v, (asS64 l.frame).toNat) := by
  rw [prologue, if_neg (fun h : l.destStride ≠ 4#64 => h hstride), hget]

/-! ### The Engine's steps in DECODING -/

/-- With no pixel left the Engine completes the command (R158). -/
theorem engineStep_complete {s : State} (hs : s.eState = .decoding) (h : s.work.pixel = s.work.npix) :
    engineStep s = .next (complete s) := by
  simp [engineStep, hs, h]

/-- While pixels remain the Engine takes the run the next pixel is made from (R157, R182). -/
theorem engineStep_currentRun {s : State} {v : Context} {i : Instr} (hs : s.eState = .decoding)
    (hlt : s.work.pixel < s.work.npix) (hv : s.ctxs[s.work.ctxIndex]? = some v) (hrun : currentRun v s.work = .ok i) :
    engineStep s = exec i s := by
  simp [engineStep, hs, hlt, hv, hrun]

/-- A used-up run is followed by the pair whose two bytes stand at the next cursor (R75, R182). -/
theorem currentRun_fetch {v : Context} {w : Work} {l p : Byte} (hr : w.rem = 0) (hl : v.rle[nextCursor w]? = some l)
    (hp : v.rle[nextCursor w + 1]? = some p) : currentRun v w = decode (.stream [l, p]) := by
  obtain ⟨hlt, -⟩ := List.getElem?_eq_some_iff.1 hp
  obtain ⟨-, hshort, -⟩ | ⟨-, -, hrun⟩ | ⟨hr', -⟩ := currentRun_cases v w
  · omega
  · rw [hrun, byteAt, byteAt, List.getD_eq_getElem?_getD, List.getD_eq_getElem?_getD, hl, hp]
    rfl
  · exact absurd hr hr'

/-- A run that is not used up goes on (R182; notes/assumptions/9.md). -/
theorem currentRun_rest {v : Context} {w : Work} (hr : w.rem ≠ 0) : currentRun v w = .ok (.run w.rem w.idx) := if_neg hr

/-! ### What the pixel loop leaves -/

/-- The cursor a pixel step works at, as the statements name it (R182). -/
theorem workCursor_eq_stepCursor (w : Work) : workCursor w = stepCursor w := rfl

/-- The codes of the pixel-loop errors (R210). -/
theorem pixelError_iff_code {e : CmdError} :
    (e = .zeroLengthRun ∨ e = .invalidPaletteIndex ∨ e = .truncatedRunStream) ↔
      (e.code = 6 ∨ e.code = 7 ∨ e.code = 8) := by
  cases e <;> decide

/-- A pixel-loop error leaves R214's state, but for host memory and the free values used (R162). -/
theorem raisePixel_eq (e : CmdError) (c : Nat) (s : State) :
    raisePixel e c s =
      { pixelErrorEnd e.code c s with mem := (raisePixel e c s).mem, freeNext := (raisePixel e c s).freeNext } := by
  unfold raisePixel spoilDest
  split <;> rfl

/-- A pixel-loop error writes no byte outside the N-pixel window (R163). -/
theorem raisePixel_memSameOutside (e : CmdError) (c : Nat) (s : State) :
    memSameOutside s.latched.destBase.toNat (4 * s.work.npix) s (raisePixel e c s) := fun _ ha => by
  rw [raisePixel_mem]
  exact spoilDest_get_other ha

/-- A pixel-loop error leaves R214's state and the destination the policy gives (R162). -/
theorem endsInPixelError_raisePixel (e : CmdError) (c : Nat) (s : State) :
    endsInPixelError e.code c s (.next (raisePixel e c s)) := by
  refine ⟨_, rfl, raisePixel_eq e c s, fun hp => ?_, raisePixel_memSameOutside e c s⟩
  rw [raisePixel_writtenPrefix hp]
  exact ⟨rfl, rfl⟩

/-- A stored pixel lies in the N-pixel window (R76, R163). -/
theorem memSameOutside_window {s t : State} (hlt : s.work.pixel < s.work.npix)
    (h : memSameOutside (pixelAddr s.latched s.work.pixel) 4 s t) :
    memSameOutside s.latched.destBase.toNat (4 * s.work.npix) s t := fun a ha =>
  h a (by simp only [pixelAddr, Config.channels]; omega)

/-- A pixel step is RUN's or RUN_ZERO's (R180, R186). -/
theorem exec_pair {i : Instr} {s : State} (h : (∃ l p, i = .run l p) ∨ ∃ p, i = .runZero p) :
    ∃ l p, exec i s = pixelStep l p s := by
  obtain ⟨l, p, rfl⟩ | ⟨p, rfl⟩ := h
  · exact ⟨l, p, rfl⟩
  · exact ⟨0, p, rfl⟩

/-! ### What ERROR_DEST_POLICY decides -/

/-- The state under another ERROR_DEST_POLICY (R162). -/
def setPolicy (q : Config.ErrorDestPolicy) (s : State) : State :=
  { s with platform := { s.platform with errorDest := q } }

@[simp] theorem setPolicy_eState (q : Config.ErrorDestPolicy) (s : State) : (setPolicy q s).eState = s.eState := rfl
@[simp] theorem setPolicy_latched (q : Config.ErrorDestPolicy) (s : State) : (setPolicy q s).latched = s.latched := rfl
@[simp] theorem setPolicy_work (q : Config.ErrorDestPolicy) (s : State) : (setPolicy q s).work = s.work := rfl
@[simp] theorem setPolicy_ctxs (q : Config.ErrorDestPolicy) (s : State) : (setPolicy q s).ctxs = s.ctxs := rfl

/-- Host memory admits reads whatever the policy (R53). -/
@[simp] theorem hmemRead_setPolicy (q : Config.ErrorDestPolicy) (s : State) (a n : Nat) :
    hmemRead (setPolicy q s) a n = hmemRead s a n := rfl

/-- Host memory admits writes whatever the policy (R53). -/
@[simp] theorem hmemWrite_setPolicy (q : Config.ErrorDestPolicy) (s : State) (a : Nat) (bs : List Byte) :
    hmemWrite (setPolicy q s) a bs = hmemWrite s a bs := rfl

/-- The capacities do not depend on the policy (R102). -/
@[simp] theorem hasCapacity_setPolicy (q : Config.ErrorDestPolicy) (s : State) (c : Context) :
    hasCapacity (setPolicy q s) c = hasCapacity s c := rfl

/-- A LOAD whose reads are made does not look at the policy. -/
theorem loadParsed_setPolicy (pal blob : List Byte) (q : Config.ErrorDestPolicy) (s : State) :
    loadParsed pal blob (setPolicy q s) = setPolicy q (loadParsed pal blob s) := by
  rw [loadParsed, loadParsed, setPolicy_latched]
  cases parse pal blob (asS64 s.latched.declaredSize) with
  | error e => rfl
  | ok c =>
    dsimp only
    rw [hasCapacity_setPolicy]
    split <;> rfl

/-- LOAD does not look at the policy. -/
theorem execLoad_setPolicy (q : Config.ErrorDestPolicy) (s : State) :
    execLoad (setPolicy q s) = mapNext (setPolicy q) (execLoad s) := by
  simp only [execLoad, hmemRead_setPolicy, setPolicy_latched, loadParsed_setPolicy]
  split
  · rfl
  · cases hmemRead s s.latched.palBase.toNat s.latched.palLen.toNat with
    | none => rfl
    | some pal => cases hmemRead s s.latched.blobBase.toNat s.latched.blobLen.toNat <;> rfl

/-- No command's step looks at the policy: a DECODE's prologue has no pixel-loop error. -/
theorem exec_command_setPolicy {i : Instr}
    (hi : i = .load ∨ i = .decode ∨ i = .clear ∨ ∃ op, i = .cmdReserved op) (q : Config.ErrorDestPolicy) (s : State) :
    exec i (setPolicy q s) = mapNext (setPolicy q) (exec i s) := by
  obtain rfl | rfl | rfl | ⟨op, rfl⟩ := hi
  · exact execLoad_setPolicy q s
  · cases h : prologue s.ctxs s.latched with
    | error e => rw [exec_decode_error (s := setPolicy q s) h, exec_decode_error h]; rfl
    | ok p => rw [exec_decode_ok (s := setPolicy q s) h, exec_decode_ok h]; rfl
  · rfl
  · rfl

/-- The answers `o` under the policy `q` and `o'` under that of `s`: the policy decides nothing, or both end a DECODE in the
same pixel-loop error, whose destination it decides (R162). -/
def policyAgrees (q : Config.ErrorDestPolicy) (s : State) (o o' : Answer) : Prop :=
  o = mapNext (setPolicy q) o' ∨
    ∃ e c, (e = .zeroLengthRun ∨ e = .invalidPaletteIndex ∨ e = .truncatedRunStream) ∧ s.eState = .decoding ∧
      o = .next (raisePixel e c (setPolicy q s)) ∧ o' = .next (raisePixel e c s)

/-- A pixel step looks at the policy only when it ends the DECODE in an error. -/
theorem pixelStep_setPolicy (l p : Byte) (q : Config.ErrorDestPolicy) {s : State} (hs : s.eState = .decoding) :
    policyAgrees q s (pixelStep l p (setPolicy q s)) (pixelStep l p s) := by
  simp only [pixelStep, setPolicy_ctxs, setPolicy_work, setPolicy_latched, hmemWrite_setPolicy]
  cases s.ctxs[s.work.ctxIndex]? with
  | none => exact .inl rfl
  | some v =>
    cases hrun : loadRun l p s.work with
    | error e => exact .inr ⟨e, _, .inl (loadRun_error hrun).2.2, hs, rfl, rfl⟩
    | ok w =>
      by_cases hidx : v.palCount ≤ w.idx.toNat
      · exact .inr ⟨_, w.cursor, .inr (.inl rfl), hs, if_pos hidx, if_pos hidx⟩
      · simp only [if_neg hidx]
        cases hmemWrite s (pixelAddr s.latched w.pixel) (pixelBytes (paletteEntry v w.idx)) <;> exact .inl rfl

/-- An Engine step looks at the policy only when it ends a DECODE in its pixel loop (R162). -/
theorem engineStep_setPolicy (q : Config.ErrorDestPolicy) (s : State) :
    policyAgrees q s (engineStep (setPolicy q s)) (engineStep s) := by
  cases hs : s.eState with
  | idle => exact .inl (by rw [engineStep_idle hs, engineStep_idle (s := setPolicy q s) hs]; rfl)
  | pending =>
    rw [engineStep_pending hs, engineStep_pending (s := setPolicy q s) hs]
    exact .inl (exec_command_setPolicy (decodeOp_command s.eOp) q s)
  | decoding =>
    unfold engineStep
    rw [setPolicy_eState, setPolicy_ctxs, setPolicy_work, hs]
    dsimp only
    by_cases hlt : s.work.pixel < s.work.npix
    · simp only [if_pos hlt]
      cases s.ctxs[s.work.ctxIndex]? with
      | none => exact .inl rfl
      | some v =>
        obtain ⟨-, -, h1⟩ | ⟨-, -, h1⟩ | ⟨-, h1⟩ := currentRun_cases v s.work <;> simp only [h1]
        · exact .inr ⟨_, _, .inr (.inr rfl), hs, rfl, rfl⟩
        · rw [exec_decodePair, exec_decodePair]
          exact pixelStep_setPolicy _ _ q hs
        · exact pixelStep_setPolicy _ _ q hs
    · simp only [if_neg hlt]
      split <;> exact .inl rfl

/-- Under either policy a pixel-loop error leaves the same but for host memory and the free values used (R162). -/
theorem raisePixel_setPolicy (e : CmdError) (c : Nat) (q : Config.ErrorDestPolicy) (s : State) :
    { raisePixel e c (setPolicy q s) with mem := [], freeNext := 0, platform := s.platform } =
      { raisePixel e c s with mem := [], freeNext := 0, platform := s.platform } := by
  rw [raisePixel_eq e c s, raisePixel_eq e c (setPolicy q s)]
  rfl

/-! ### `decodeFrame`, from working registers on -/

/-- The rest of `decodeFrame`'s loop from the working registers on, with `out` the pixels so far (R160). -/
def frameRest (v : Context) (w : Work) (out : List (List Byte)) : FrameResult :=
  frameLoop v (w.npix - w.pixel) w.pixel w.cursor w.started w.rem.toNat w.idx.toNat out

/-- With no run fetched yet the loop does not look at IDX (R182). -/
theorem frameLoop_idx (v : Context) (n i c : Nat) (started : Bool) (x y : Nat) (out : List (List Byte)) :
    frameLoop v n i c started 0 x out = frameLoop v n i c started 0 y out := by
  cases n <;> rfl

/-- `decodeFrame` is the loop from the prologue's working registers on, whatever IDX they hold (R156, R160). -/
theorem decodeFrame_eq_frameRest (v : Context) (f h : Nat) (w : Work) :
    decodeFrame v f = frameRest v (startWork h v f w) [] := by
  rw [decodeFrame, Nat.mul_comm, frameLoop_idx v _ _ _ _ 0 w.idx.toNat]
  rfl

/-- A byte that is not 0 is no number 0. -/
theorem byte_toNat_ne_zero {x : Byte} (h : x ≠ 0#8) : x.toNat ≠ 0 := fun h0 => h (BitVec.eq_of_toNat_eq h0)

/-- Counting a pixel of a run takes one from REM (R191). -/
theorem byte_toNat_sub_one {x : Byte} (h : x ≠ 0#8) : (x - 1#8).toNat = x.toNat - 1 := by
  bv_omega

section
variable {v : Context} {w w' : Work} {l p : Byte} {out : List (List Byte)}

/-- With all pixels written the loop returns them. -/
theorem frameRest_done (h : w.pixel = w.npix) : frameRest v w out = .ok out := by
  rw [frameRest, h, Nat.sub_self, frameLoop]

/-- The loop with pixels to go. -/
theorem frameRest_lt (h : w.pixel < w.npix) :
    frameRest v w out =
      frameLoop v (w.npix - (w.pixel + 1) + 1) w.pixel w.cursor w.started w.rem.toNat w.idx.toNat out := by
  rw [frameRest, show w.npix - w.pixel = w.npix - (w.pixel + 1) + 1 by omega]

/-- A fetch past the end of the stream (R184). -/
theorem frameRest_truncated (hlt : w.pixel < w.npix) (hr : w.rem = 0#8) (hend : v.rle.length < nextCursor w + 2) :
    frameRest v w out = .err .truncatedRunStream w.pixel (nextCursor w) out := by
  rw [frameRest_lt hlt, frameLoop, hr]
  exact if_pos hend

/-- The pair `(l, p)` is the one the next pixel's fetch reads, if it fetches (R182). -/
def fetchesPair (v : Context) (w : Work) (l p : Byte) : Prop :=
  w.rem = 0#8 → nextCursor w + 2 ≤ v.rle.length ∧ l = byteAt v.rle (nextCursor w) ∧
    p = byteAt v.rle (nextCursor w + 1)

/-- The loop at a fetch inside the stream (R182, R186, R188). -/
theorem frameRest_fetch (hlt : w.pixel < w.npix) (hr : w.rem = 0#8) (hin : nextCursor w + 2 ≤ v.rle.length) :
    frameRest v w out =
      if (byteAt v.rle (nextCursor w)).toNat = 0 then .err .zeroLengthRun w.pixel (nextCursor w) out
      else if v.palCount ≤ (byteAt v.rle (nextCursor w + 1)).toNat then
        .err .invalidPaletteIndex w.pixel (nextCursor w) out
      else
        frameLoop v (w.npix - (w.pixel + 1)) (w.pixel + 1) (nextCursor w) true
          ((byteAt v.rle (nextCursor w)).toNat - 1) (byteAt v.rle (nextCursor w + 1)).toNat
          (out ++ [pixelBytes (paletteEntry v (byteAt v.rle (nextCursor w + 1)))]) := by
  rw [frameRest_lt hlt, frameLoop, hr]
  exact if_neg (Nat.not_lt.2 hin)

/-- The loop inside a run (R182, R188). -/
theorem frameRest_inRun (hlt : w.pixel < w.npix) (hr : w.rem ≠ 0#8) :
    frameRest v w out =
      if v.palCount ≤ w.idx.toNat then .err .invalidPaletteIndex w.pixel w.cursor out
      else
        frameLoop v (w.npix - (w.pixel + 1)) (w.pixel + 1) w.cursor w.started (w.rem.toNat - 1) w.idx.toNat
          (out ++ [pixelBytes (paletteEntry v w.idx)]) := by
  rw [frameRest_lt hlt, frameLoop]
  exact if_neg (byte_toNat_ne_zero hr)

/-- A fetch that fails (R186). -/
theorem frameRest_fetchError {e : CmdError} (hlt : w.pixel < w.npix) (hpair : fetchesPair v w l p)
    (hrun : loadRun l p w = .error e) : frameRest v w out = .err e w.pixel (nextCursor w) out := by
  obtain ⟨hr, hl, rfl⟩ := loadRun_error hrun
  obtain ⟨hin, rfl, -⟩ := hpair hr
  rw [frameRest_fetch hlt hr hin, hl]
  rfl

/-- A palette index that is not populated (R188). -/
theorem frameRest_badIndex (hlt : w.pixel < w.npix) (hpair : fetchesPair v w l p) (hrun : loadRun l p w = .ok w')
    (hidx : v.palCount ≤ w'.idx.toNat) : frameRest v w out = .err .invalidPaletteIndex w.pixel w'.cursor out := by
  obtain ⟨-, -, h1⟩ | ⟨hr, hl, h1⟩ | ⟨hr, h1⟩ := loadRun_cases l p w <;> rw [h1] at hrun <;> cases hrun
  · obtain ⟨hin, rfl, rfl⟩ := hpair hr
    rw [frameRest_fetch hlt hr hin, if_neg (byte_toNat_ne_zero hl), if_pos hidx]
  · rw [frameRest_inRun hlt hr, if_pos hidx]

/-- A pixel: the loop goes on from the working registers that count it (R181, R191). -/
theorem frameRest_pixel (hlt : w.pixel < w.npix) (hpair : fetchesPair v w l p) (hrun : loadRun l p w = .ok w')
    (hidx : w'.idx.toNat < v.palCount) :
    frameRest v w out = frameRest v (countPixel w') (out ++ [pixelBytes (paletteEntry v w'.idx)]) := by
  obtain ⟨-, -, h1⟩ | ⟨hr, hl, h1⟩ | ⟨hr, h1⟩ := loadRun_cases l p w <;> rw [h1] at hrun <;> cases hrun
  · obtain ⟨hin, rfl, rfl⟩ := hpair hr
    rw [frameRest_fetch hlt hr hin, if_neg (byte_toNat_ne_zero hl), if_neg (Nat.not_le.2 hidx),
      frameRest, ← byte_toNat_sub_one hl]
    rfl
  · rw [frameRest_inRun hlt hr, if_neg (Nat.not_le.2 hidx), frameRest, ← byte_toNat_sub_one hr]
    rfl

end

/-- A pixel sequence made of colours: each pixel has the four bytes of R76. -/
def arePixels (out : List (List Byte)) : Prop := ∃ colors : List Color, out = colors.map pixelBytes

/-- One more pixel. -/
theorem arePixels.append {out : List (List Byte)} (h : arePixels out) (c : Color) :
    arePixels (out ++ [pixelBytes c]) := by
  obtain ⟨colors, rfl⟩ := h
  exact ⟨colors ++ [c], by simp⟩

/-- What `decodeFrame` returns for `n` pixels in all: as many pixels as were asked for, or as many as stand before the pixel of
the error (R160). -/
def FrameResult.wellSized (n : Nat) : FrameResult → Prop
  | .ok out => arePixels out ∧ out.length = n
  | .err _ i _ out => arePixels out ∧ out.length = i ∧ i < n

/-- The loop returns the pixels so far and those to go, or fails at one of these. -/
theorem frameLoop_wellSized (v : Context) (n : Nat) {i : Nat} {out : List (List Byte)} (hout : arePixels out)
    (hlen : out.length = i) (c : Nat) (started : Bool) (rem idx : Nat) :
    (frameLoop v n i c started rem idx out).wellSized (i + n) := by
  induction n generalizing i c started rem idx out with
  | zero => exact ⟨hout, hlen⟩
  | succ n ih =>
    have herr : ∀ e c', (FrameResult.err e i c' out).wellSized (i + (n + 1)) := fun _ _ => ⟨hout, hlen, by omega⟩
    have hnext : ∀ color c' started' rem' idx',
        (frameLoop v n (i + 1) c' started' rem' idx' (out ++ [pixelBytes color])).wellSized (i + (n + 1)) := by
      intro color c' started' rem' idx'
      rw [show i + (n + 1) = i + 1 + n by omega]
      exact ih (hout.append color) (by simp [hlen]) c' started' rem' idx'
    simp only [frameLoop]
    generalize (if started = true then c + 2 else c) = cursor
    split
    · split
      · exact herr _ _
      · split
        · exact herr _ _
        · split
          · exact herr _ _
          · exact hnext _ _ _ _ _
    · split
      · exact herr _ _
      · exact hnext _ _ _ _ _

/-- `decodeFrame` returns N pixels, or fails at a pixel below N (R160). -/
theorem decodeFrame_wellSized (v : Context) (f : Nat) : (decodeFrame v f).wellSized (pixelCount v) := by
  have h := frameLoop_wellSized (i := 0) (out := []) v (pixelCount v) ⟨[], rfl⟩ rfl
    (2 * (v.offsets.getD f 0#32).toNat) false 0 0
  rwa [Nat.zero_add] at h

/-! ### The pixel loop of the machine -/

/-- Two writes of which the second begins where the first ends are one. -/
theorem Memory.write_append (m : Memory) (a : Nat) (bs cs : List Byte) :
    Memory.write m a (bs ++ cs) = Memory.write (Memory.write m a bs) (a + bs.length) cs := by
  induction bs generalizing m a with
  | nil => rfl
  | cons b bs ih =>
    rw [List.cons_append, Memory.write, Memory.write, ih, List.length_cons, Nat.add_right_comm, Nat.add_assoc]

/-- A run of the Engine goes on from the state its first step leaves. -/
theorem engineRun_next {s t : State} (h : engineStep s = .next t) (k : Nat) : engineRun (k + 1) s = engineRun k t := by
  rw [engineRun, h]

/-- The DECODE of `s` with the pixels `out` at the destination and the working registers `w` (R160). -/
def midFrame (s : State) (w : Work) (out : List (List Byte)) : State :=
  { s with eState := .decoding, work := w, mem := Memory.write s.mem s.latched.destBase.toNat out.flatten }

/-- The state in which the DECODE of `s` ends with the result of `decodeFrame` (R160): the pixels written one after the other,
then the completion or the error at its pixel. -/
def frameEnd (s : State) (w : Work) : FrameResult → State
  | .ok out => complete (midFrame s w out)
  | .err e i c out => raisePixel e c (midFrame s { w with pixel := i } out)

/-- The answer `o` of an Engine step in the DECODE of `s` is one turn of `decodeFrame`'s loop (R160): the loop's error, or the next
pixel, from which the loop goes on. -/
def isLoopTurn (s : State) (v : Context) (w : Work) (out : List (List Byte)) (o : Answer) : Prop :=
  (∃ e c, o = .next (raisePixel e c (midFrame s w out)) ∧ frameRest v w out = .err e w.pixel c out) ∨
  (∃ w' color, o = .next (midFrame s w' (out ++ [pixelBytes color])) ∧ w'.pixel = w.pixel + 1 ∧ w'.npix = w.npix ∧
    w'.ctxIndex = w.ctxIndex ∧ frameRest v w out = frameRest v w' (out ++ [pixelBytes color]))

section
variable {s : State} {v : Context} {w : Work} {out : List (List Byte)}

/-- The pixel step is one turn of the loop, with the pair its fetch reads (R181). -/
theorem pixelStep_isLoopTurn {l p : Byte} (hv : s.ctxs[w.ctxIndex]? = some v) (hlt : w.pixel < w.npix)
    (hout : out.flatten.length = 4 * w.pixel)
    (ha : hmemAdmit s.platform (pixelAddr s.latched w.pixel) 4 .write = true) (hpair : fetchesPair v w l p) :
    isLoopTurn s v w out (pixelStep l p (midFrame s w out)) := by
  obtain ⟨hno, -⟩ | ⟨u, hu, h⟩ := pixelStep_cases l p (midFrame s w out)
  · cases hv.symm.trans hno
  obtain rfl : v = u := Option.some.inj (hv.symm.trans hu)
  obtain ⟨e, hrun, h1⟩ | ⟨w', hrun, hidx, h1⟩ | ⟨w', hrun, -, hrefused, -⟩ | ⟨w', hrun, hidx, -, h1⟩ := h
  · exact .inl ⟨e, _, h1, frameRest_fetchError hlt hpair hrun⟩
  · exact .inl ⟨_, _, h1, frameRest_badIndex hlt hpair hrun hidx⟩
  · rw [(loadRun_ok hrun).1] at hrefused
    cases ha.symm.trans hrefused
  · obtain ⟨hpixel, hnpix, hctx, -⟩ := loadRun_ok hrun
    refine .inr ⟨countPixel w', paletteEntry v w'.idx, h1.trans ?_, congrArg (· + 1) hpixel, hnpix, hctx,
      frameRest_pixel hlt hpair hrun hidx⟩
    rw [hpixel]
    simp [midFrame, Memory.write_append, hout, pixelAddr]

/-- While pixels remain, an Engine step is one turn of the loop (R157, R160). -/
theorem engineStep_isLoopTurn (hv : s.ctxs[w.ctxIndex]? = some v) (hlt : w.pixel < w.npix)
    (hout : out.flatten.length = 4 * w.pixel)
    (ha : hmemAdmit s.platform (pixelAddr s.latched w.pixel) 4 .write = true) :
    isLoopTurn s v w out (engineStep (midFrame s w out)) := by
  obtain ⟨hx, -⟩ | ⟨hx, -⟩ | ⟨-, hno, -⟩ | ⟨u, -, hu, h⟩ := engineStep_decoding_cases (s := midFrame s w out) rfl
  · exact absurd hx hlt.ne
  · exact absurd hx (Nat.lt_asymm hlt)
  · cases hv.symm.trans hno
  obtain rfl : v = u := Option.some.inj (hv.symm.trans hu)
  obtain ⟨hr, hend, h1⟩ | ⟨-, hin, h1⟩ | ⟨hr, h1⟩ := h <;> rw [h1]
  · exact .inl ⟨_, _, rfl, frameRest_truncated hlt hr hend⟩
  · exact pixelStep_isLoopTurn hv hlt hout ha fun _ => ⟨hin, rfl, rfl⟩
  · exact pixelStep_isLoopTurn hv hlt hout ha fun h => absurd h hr

/-- With no pixel to go, an Engine step ends the DECODE as the loop does (R158, R160). -/
theorem engineStep_midFrame_done (h : w.pixel = w.npix) :
    engineStep (midFrame s w out) = .next (frameEnd s w (frameRest v w out)) := by
  rw [engineStep_complete rfl h, frameRest_done h]
  rfl

/-- With `n` pixels to go, the machine ends within `n + 1` steps as the loop does (R159, R160). -/
theorem engineRun_midFrame (n : Nat) (hv : s.ctxs[w.ctxIndex]? = some v) (hn : w.npix = w.pixel + n)
    (hout : out.flatten.length = 4 * w.pixel)
    (ha : ∀ i, i < w.npix → hmemAdmit s.platform (pixelAddr s.latched i) 4 .write = true) :
    ∃ w', w'.npix = w.npix ∧ engineRun (n + 1) (midFrame s w out) = .next (frameEnd s w' (frameRest v w out)) := by
  induction n generalizing w out with
  | zero => exact ⟨w, rfl, engineRun_next (engineStep_midFrame_done hn.symm) 0⟩
  | succ n ih =>
    have hlt : w.pixel < w.npix := by omega
    obtain ⟨e, c, h1, h2⟩ | ⟨w', color, h1, hpixel, hnpix, hctx, h2⟩ :=
      engineStep_isLoopTurn hv hlt hout (ha _ hlt)
    · refine ⟨w, rfl, ?_⟩
      rw [engineRun_next h1, h2]
      exact engineRun_idle (raisePixel_eState ..) _
    · have hlen : (pixelBytes color).length = 4 := rfl
      obtain ⟨w'', hnpix', hrun⟩ := ih (w := w') (out := out ++ [pixelBytes color]) (hctx ▸ hv) (by omega)
        (by simp [hout, hlen, hpixel, Nat.mul_add]) (hnpix ▸ ha)
      exact ⟨w'', hnpix'.trans hnpix, by rw [engineRun_next h1, h2, hrun]⟩

end

/-- The prologue of a ready DECODE passes (R151). -/
theorem decodeReady_prologue {s : State} {v : Context} {f : Nat} (h : decodeReady s v f) :
    prologue s.ctxs s.latched = .ok (v, f) := by
  obtain ⟨-, -, hstride, hhandle, hv, hframe, hf, hcap, -⟩ := h
  exact prologue_passes hstride hhandle hv hframe hf hcap

/-- A ready DECODE ends within N + 2 Engine steps with the result of `decodeFrame` (R159, R160). -/
theorem decodeReady_engineRun {s : State} {v : Context} {f : Nat} (h : decodeReady s v f) :
    ∃ w, w.npix = pixelCount v ∧
      engineRun (pixelCount v + 2) s = .next (frameEnd s w (decodeFrame v f)) := by
  have hp := decodeReady_prologue h
  obtain ⟨hs, ho, -, -, hv, -, -, -, ha⟩ := h
  have hstart : engineStep s =
      .next (midFrame s (startWork (asS64 s.latched.handle).toNat v f s.work) []) := by
    rw [engineStep_pending hs, ho]
    exact exec_decode_ok hp
  obtain ⟨w, hn, hrun⟩ := engineRun_midFrame (pixelCount v)
    (w := startWork (asS64 s.latched.handle).toNat v f s.work) (out := []) hv (Nat.zero_add _).symm rfl ha
  refine ⟨w, hn, ?_⟩
  rw [decodeFrame_eq_frameRest, ← hrun, engineRun_next hstart]

/-! ### The destination of a whole DECODE -/

/-- Byte `k` of pixel `i`, in the pixels one after the other (R76). -/
theorem arePixels_getD {out : List (List Byte)} (h : arePixels out) {i k : Nat} (hi : i < out.length) (hk : k < 4) :
    out.flatten.getD (4 * i + k) 0 = (out.getD i []).getD k 0 := by
  obtain ⟨colors, rfl⟩ := h
  have hi : i < colors.length := by simpa using hi
  have hbyte := byteAt_flatMap (f := pixelBytes) (fun _ => rfl) colors [] hi hk
  rw [List.append_nil, List.flatMap_def] at hbyte
  rw [List.getD_eq_getElem?_getD (l := colors.map pixelBytes), List.getElem?_map, List.getElem?_eq_getElem hi]
  exact hbyte

/-- Pixels one after the other take four bytes each (R76). -/
theorem arePixels_length {out : List (List Byte)} (h : arePixels out) : out.flatten.length = 4 * out.length := by
  obtain ⟨colors, rfl⟩ := h
  have hlen : ∀ c, (pixelBytes c).length = 4 := fun _ => rfl
  simp [List.length_flatten, Function.comp_def, hlen, Nat.mul_comm]

/-- Admitted pixel writes lie inside host memory (R53). -/
theorem pixels_bound {s : State} {N n : Nat}
    (ha : ∀ i, i < N → hmemAdmit s.platform (pixelAddr s.latched i) 4 .write = true) (hn : n ≤ N) :
    s.latched.destBase.toNat + 4 * n ≤ Config.addrSpace := by
  cases n with
  | zero => exact s.latched.destBase.isLt.le
  | succ n =>
    have hlast := hmemAdmit_bound (ha n hn)
    simp only [pixelAddr, Config.channels] at hlast
    omega

/-- A write of pixels one after the other puts each in its place and leaves every other byte alone (R76). -/
theorem pixelsWritten_of_mem {s t : State} {out : List (List Byte)} (hwf : Memory.wf s.mem = true)
    (hout : arePixels out) (hb : s.latched.destBase.toNat + 4 * out.length ≤ Config.addrSpace)
    (hm : t.mem = Memory.write s.mem s.latched.destBase.toNat out.flatten) : pixelsWritten out s t := by
  have hlen := arePixels_length hout
  refine ⟨fun i k hi hk => ?_, fun a ha => ?_⟩
  · rw [hm, ← arePixels_getD hout hi hk, pixelAddr, Nat.add_assoc]
    exact Memory.get_write_same hwf (by rw [hlen, Config.channels]; omega) (hlen ▸ hb)
  · rw [hm]
    exact Memory.get_write_other (hlen ▸ ha)

/-- Under the policy `writtenPrefix` a pixel-loop error leaves the pixels before it at the destination (R162). -/
theorem frameEnd_err_mem {s : State} {w : Work} {e : CmdError} {i c : Nat} {out : List (List Byte)}
    (hp : s.platform.errorDest = .writtenPrefix) :
    (frameEnd s w (.err e i c out)).mem = Memory.write s.mem s.latched.destBase.toNat out.flatten := by
  rw [frameEnd, raisePixel_writtenPrefix (s := midFrame s { w with pixel := i } out) hp]
  rfl

/-- Under either policy a pixel-loop error leaves every byte outside the N-pixel window alone (R162, R163). -/
theorem frameEnd_err_memSameOutside {s : State} {w : Work} {e : CmdError} {i c n : Nat} {out : List (List Byte)}
    (hout : arePixels out) (hn : w.npix = n) (hle : out.length ≤ n) :
    memSameOutside s.latched.destBase.toNat (4 * n) s (frameEnd s w (.err e i c out)) := fun a ha => by
  subst hn
  have hlen := arePixels_length hout
  calc Memory.get (frameEnd s w (.err e i c out)).mem a
      = Memory.get (midFrame s { w with pixel := i } out).mem a := raisePixel_memSameOutside e c _ a ha
    _ = Memory.get s.mem a := Memory.get_write_other (by omega)

/-- A whole DECODE ends, whatever its result (R214, R215). -/
theorem frameEnd_ended (s : State) (w : Work) (r : FrameResult) :
    (frameEnd s w r).eState = .idle ∧ (frameEnd s w r).done = true := by
  cases r <;> simp [frameEnd]

/-- A whole DECODE changes neither the store nor a RES register nor the Host's side (R27, R37). -/
theorem frameEnd_frame (s : State) (w : Work) (r : FrameResult) :
    (frameEnd s w r).ctxs = s.ctxs ∧ (frameEnd s w r).res = s.res ∧ hostSideSame s (frameEnd s w r) := by
  cases r <;> simp [frameEnd, midFrame, hostSideSame]

end Sys2Proof.Machine

namespace Sys2Proof.Proofs.FrameDecode

open Sys2Proof.Machine Sys2Proof.Safety Sys2Proof.Claims

/-- Settles O28: the prologue's four checks pass, and the frame's offset gives CURSOR. -/
theorem decodePrologueCompletes : Obligations.DecodePrologueCompletes := by
  intro s v f o hstride hhandle hv hframe hf ho hcap
  have hp := prologue_passes hstride hhandle hv hframe hf hcap
  have hcursor : firstPair v f = o.toNat * 2 := by rw [firstPair, List.getD_eq_getElem?_getD, ho]; rfl
  rw [exec_decode_ok hp, startWork, hcursor]
  rfl

/-- Settles O29, check by check. -/
theorem decodePrologueErrorsInOrder : Obligations.DecodePrologueErrorsInOrder := by
  refine fun s => ⟨fun h => exec_decode_error (prologue_badStride h), fun hstride =>
    ⟨fun h => exec_decode_notFound hstride (getContext_eq_none.2 h), fun v hhandle hv => ?_⟩⟩
  have hp := prologue_of_context hstride (getContext_eq_some.2 ⟨hhandle, hv⟩)
  refine ⟨fun h => exec_decode_error (hp.trans (if_pos h)), fun h0 hlt hcap =>
    exec_decode_error (e := .bufferTooSmall) ?_⟩
  rw [hp, if_neg (by omega)]
  exact if_pos hcap

/-- Settles O32: the machine ends in `frameEnd`, whose destination holds the pixels of `decodeFrame` one after the other. -/
theorem decodeRunsAsDecodeFrame : Obligations.DecodeRunsAsDecodeFrame := by
  intro s v f hready hwf
  obtain ⟨w, hn, hrun⟩ := decodeReady_engineRun hready
  obtain ⟨-, -, -, -, -, -, -, -, ha⟩ := hready
  obtain ⟨hidle, hdone⟩ := frameEnd_ended s w (decodeFrame v f)
  obtain ⟨hctxs, hres, hside⟩ := frameEnd_frame s w (decodeFrame v f)
  refine ⟨_, hrun, hidle, hdone, hctxs, hres, hside, ?_⟩
  have hsize := decodeFrame_wellSized v f
  revert hsize
  cases decodeFrame v f with
  | ok out =>
    rintro ⟨hout, hlen⟩
    exact ⟨rfl, hlen, rfl, rfl, pixelsWritten_of_mem hwf hout (pixels_bound ha hlen.le) rfl⟩
  | err e i c out =>
    rintro ⟨hout, hlen, hi⟩
    refine ⟨raisePixel_err .., raisePixel_errPixel .., raisePixel_errCursor .., hlen, hi, fun hp => ?_, ?_⟩
    · exact pixelsWritten_of_mem hwf hout (pixels_bound ha (hlen.trans_le hi.le)) (frameEnd_err_mem hp)
    · exact frameEnd_err_memSameOutside hout hn (hlen.trans_le hi.le)

/-- Settles O33: `frameEnd` is an end, under either policy. -/
theorem decodeEndsWithinPixelsPlusTwo : Obligations.DecodeEndsWithinPixelsPlusTwo := by
  intro s v f hready
  obtain ⟨w, -, hrun⟩ := decodeReady_engineRun hready
  exact ⟨_, _, le_rfl, hrun, frameEnd_ended ..⟩

/-- Settles O34: both DECODEs end as the one `decodeFrame` says (O32). -/
theorem decodeIsRepeatable : Obligations.DecodeIsRepeatable := by
  intro s1 s2 v f hready1 hready2 _ _ hwf1 hwf2 hpixel hcursor
  obtain ⟨t1, hrun1, hidle1, hdone1, -, -, -, h1⟩ := decodeRunsAsDecodeFrame s1 v f hready1 hwf1
  obtain ⟨t2, hrun2, hidle2, hdone2, -, -, -, h2⟩ := decodeRunsAsDecodeFrame s2 v f hready2 hwf2
  refine ⟨t1, t2, hrun1, hrun2, ⟨hidle1, hdone1⟩, ⟨hidle2, hdone2⟩, ?_⟩
  cases hr : decodeFrame v f with
  | ok out =>
    rw [hr] at h1 h2
    obtain ⟨herr1, hlen, hp1, hc1, hw1, -⟩ := h1
    obtain ⟨herr2, -, hp2, hc2, hw2, -⟩ := h2
    refine ⟨herr1.trans herr2.symm, by rw [hp1, hp2, hpixel], by rw [hc1, hc2, hcursor],
      fun _ i k hi hk => ?_, fun hne => absurd herr1 hne⟩
    rw [hw1 i k (hlen ▸ hi) hk, hw2 i k (hlen ▸ hi) hk]
  | err e i c out =>
    rw [hr] at h1 h2
    obtain ⟨herr1, hp1, hc1, hlen, -, hw1, -⟩ := h1
    obtain ⟨herr2, hp2, hc2, -, -, hw2, -⟩ := h2
    refine ⟨herr1.trans herr2.symm, hp1.trans hp2.symm, hc1.trans hc2.symm,
      fun h0 => absurd (herr1.symm.trans h0) (code_ne_zero e), fun _ hpol1 hpol2 j k hj hk => ?_⟩
    have hj : j < out.length := by
      rw [hp1, BitVec.toNat_ofNat] at hj
      exact hlen ▸ hj.trans_le (Nat.mod_le ..)
    rw [(hw1 hpol1).1 j k hj hk, (hw2 hpol2).1 j k hj hk]

/-- Settles O35, by what an Engine step did: a pixel lies in the window, and a pixel-loop error spoils no more than it. -/
theorem decodeWritesOnlyItsDestination : Obligations.DecodeWritesOnlyItsDestination := by
  refine fun s t h => ⟨fun hs => ?_, fun hs _ a => by rw [engineStep_mem h (by simp [hs])]⟩
  obtain ⟨-, rfl⟩ | ⟨-, e, -, rfl⟩ | ⟨hlt, v, w, bs, -, -, -, -, hlen, -, rfl⟩ := engineStep_decoding_next hs h
  · exact fun _ _ => rfl
  · exact raisePixel_memSameOutside _ _ s
  · exact memSameOutside_window hlt fun a ha => Memory.get_write_other (hlen ▸ ha)

/-- Settles O36: a step that does not end in a pixel-loop error does not look at the policy, and such an error leaves the same
under both but for the destination. -/
theorem errorPolicyDecidesOnlyTheDestination : Obligations.ErrorPolicyDecidesOnlyTheDestination := by
  intro s q
  have hagree : policyAgrees q s (engineStep { s with platform := { s.platform with errorDest := q } })
      (engineStep s) := engineStep_setPolicy q s
  refine ⟨?_, fun t u ht hu => ⟨fun h6 h7 h8 => ?_, fun hs => ?_⟩⟩
  · obtain h | ⟨e, c, -, -, h1, h2⟩ := hagree
    · rw [h]
      cases engineStep s with
      | next u => rfl
      | fault e => rfl
      | refused r => rfl
    · rw [h1, h2]
      exact congrArg Host.Outcome.next (raisePixel_setPolicy e c q s)
  · rw [ht, hu] at hagree
    obtain h | ⟨e, c, he, -, h1, -⟩ := hagree
    · rw [next_inj.1 h]
      rfl
    · rw [next_inj.1 h1, raisePixel_err] at h6 h7 h8
      rcases pixelError_iff_code.1 he with hcode | hcode | hcode
      · exact absurd hcode h6
      · exact absurd hcode h7
      · exact absurd hcode h8
  · exact (engineStep_mem ht (hs.trans_ne (by decide)) :)

/-- Settles O42, by what a pixel step did. -/
theorem runFrame : Obligations.RunFrame := by
  intro i s t hi hs h
  obtain ⟨l, p, hexec⟩ := exec_pair hi
  rw [hexec] at h
  obtain ⟨e, -, rfl⟩ | ⟨v, w, -, hrun, -, -, rfl⟩ := pixelStep_next h
  · have hwork := raisePixel_work e (workCursor s.work) s
    refine ⟨by simp [hostSideSame], raisePixel_ctxs .., raisePixel_res .., by rw [hwork], by rw [hwork],
      fun hd => by simp at hd, fun _ => ⟨hwork, raisePixel_memSameOutside _ _ s, fun hp => ?_⟩⟩
    rw [raisePixel_writtenPrefix hp]
    exact ⟨fun _ => rfl, rfl⟩
  · obtain ⟨-, hn, hc, -⟩ := loadRun_ok hrun
    exact ⟨by simp [hostSideSame], rfl, rfl, hc, hn, fun _ => ⟨rfl, rfl, rfl, rfl, rfl, fun a ha =>
      Memory.get_write_other ha⟩, fun hne => absurd hs hne⟩

/-- Settles O43: with the invariant ERR is 0 while the command runs, so it is the code of the error that ended it. -/
theorem errorsArePrecise : Obligations.ErrorsArePrecise := by
  intro s t hinv hbusy h herr
  obtain ⟨-, herr0, -, -⟩ := hinv.busy_outcome hbusy
  have hone : 1 ≤ t.err.toNat := by bv_omega
  refine ⟨hone, (hinv.engineStep h).err_code, ?_⟩
  cases hs : s.eState with
  | idle => exact absurd hs hbusy
  | pending =>
    obtain ⟨e, h8, h6, h7, rfl⟩ | ⟨-, c, rfl⟩ | ⟨-, v, f, -, rfl⟩ | ⟨-, rfl⟩ := engineStep_pending_next hs h
    · have hcode := (pixelError_iff_code (e := e)).not.1 (by simp [h8, h6, h7])
      simp only [not_or] at hcode
      exact .inl ⟨hcode.1, hcode.2.1, hcode.2.2, rfl, rfl⟩
    · exact absurd rfl herr
    · exact absurd herr0 herr
    · exact absurd rfl herr
  | decoding =>
    obtain ⟨-, rfl⟩ | ⟨-, e, he, rfl⟩ | ⟨-, v, w, bs, -, -, -, -, -, -, rfl⟩ := engineStep_decoding_next hs h
    · exact absurd rfl herr
    · refine .inr ⟨pixelError_iff_code.1 he, rfl, ?_⟩
      rw [raisePixel_err, ← workCursor_eq_stepCursor]
      exact endsInPixelError_raisePixel ..
    · exact absurd herr0 herr

/-- Settles O31: what the completion step keeps is not read, so any store, REM and IDX will do. -/
theorem completionStep : Obligations.CompletionStep := fun _ hs h =>
  ⟨engineStep_complete hs h, fun _ _ _ => engineStep_complete hs h⟩

/-- Settles O47: the Engine's turn runs what the current run is, a pair fetched or the rest of a run. -/
theorem stepRunsTheDecodedPair : Obligations.StepRunsTheDecodedPair := by
  intro s rest v ht hs hlt hv
  have hturn : ∀ i, currentRun v s.work = .ok i →
      step s = turnAnswer { s with turns := rest } (exec i { s with turns := rest }) := by
    intro i hrun
    rw [step_engine ht, engineTurn_eq_turnAnswer, engineStep_currentRun (s := { s with turns := rest }) hs hlt hv hrun]
  exact ⟨fun l p i hr hl hp hi => hturn i ((currentRun_fetch hr hl hp).trans hi),
    fun hr => hturn _ (currentRun_rest hr)⟩

end Sys2Proof.Proofs.FrameDecode
end

section
/-! Proofs of the statements of 43_run_expansion.md and what they need: what the fetch part gives, and the pixel step for
each of its ends. -/

namespace Sys2Proof.Machine

open Sys2Proof.Claims

/-! ### The fetch part -/

section
variable {l p : Byte} {w : Work}

/-- A fetched pair of length 0 is ZeroLengthRun, whatever its palette index (R186). -/
theorem loadRun_zeroLength (hr : w.rem = 0) : loadRun 0 p w = .error .zeroLengthRun :=
  (if_pos hr).trans (if_pos rfl)

/-- A fetched pair of another length becomes the current run (R182). -/
theorem loadRun_fetch (hr : w.rem = 0) (hl : l ≠ 0) :
    loadRun l p w = .ok { w with cursor := nextCursor w, started := true, rem := l, idx := p } :=
  (if_pos hr).trans (if_neg hl)

/-- A run that is not used up goes on, whatever the pair (R181; notes/assumptions/9.md). -/
theorem loadRun_inRun (hr : w.rem ≠ 0) : loadRun l p w = .ok w := if_neg hr

end

/-! ### The pixel step -/

/-- RUN is the pixel step with its pair (R180). -/
theorem exec_run (l p : Byte) (s : State) : exec (.run l p) s = pixelStep l p s := rfl

/-- RUN_ZERO is the pixel step with a pair of length 0 (R186). -/
theorem exec_runZero (p : Byte) (s : State) : exec (.runZero p) s = pixelStep 0 p s := rfl

/-- A byte that is not 0 counted down does not wrap (R191). -/
theorem byte_sub_one {x : Byte} (h : x ≠ 0) : x - 1#8 = BitVec.ofNat 8 (x.toNat - 1) := by
  rw [← byte_toNat_sub_one h, BitVec.ofNat_toNat, BitVec.setWidth_eq]

section
variable {s : State} {v : Context} {w : Work} {l p : Byte} (hv : s.ctxs[s.work.ctxIndex]? = some v)
include hv

/-- A pixel step whose fetch part fails ends the command at the cursor of the fetch (R186). -/
theorem pixelStep_fetchError {e : CmdError} (hrun : loadRun l p s.work = .error e) :
    pixelStep l p s = .next (raisePixel e (nextCursor s.work) s) := by
  simp [pixelStep, hv, hrun]

/-- A pixel step whose palette index is not populated ends the command at the cursor of its run (R188). -/
theorem pixelStep_badIndex (hrun : loadRun l p s.work = .ok w) (hidx : v.palCount ≤ w.idx.toNat) :
    pixelStep l p s = .next (raisePixel .invalidPaletteIndex w.cursor s) := by
  simp [pixelStep, hv, hrun, hidx]

/-- A pixel step whose palette index is populated and whose write is admitted stores the entry's colour at pixel I and counts
the pixel (R189 to R191). -/
theorem pixelStep_pixel {c : Color} (hrun : loadRun l p s.work = .ok w) (hidx : w.idx.toNat < v.palCount)
    (hc : v.pal[w.idx.toNat]? = some c)
    (ha : hmemAdmit s.platform (pixelAddr s.latched s.work.pixel) 4 .write = true) :
    pixelStep l p s = .next { s with
      mem := Memory.write s.mem (pixelAddr s.latched s.work.pixel) (pixelBytes c), work := countPixel w } := by
  have hcolor : paletteEntry v w.idx = c := by simp [paletteEntry, List.getD_eq_getElem?_getD, hc]
  have hwrite : hmemWrite s (pixelAddr s.latched w.pixel) (pixelBytes c) =
      some (Memory.write s.mem (pixelAddr s.latched s.work.pixel) (pixelBytes c)) := by
    rw [(loadRun_ok hrun).1]
    exact hmemWrite_eq_some.2 ⟨ha, rfl⟩
  simp [pixelStep, hv, hrun, Nat.not_le.2 hidx, hcolor, hwrite]

/-- RUN writes a pixel: its four bytes stand at pixel I, no other byte of host memory changes, and of the rest of the state only the
working registers do (R190). -/
theorem exec_run_pixel {c : Color} (hrun : loadRun l p s.work = .ok w) (hidx : w.idx.toNat < v.palCount)
    (hc : v.pal[w.idx.toNat]? = some c)
    (ha : hmemAdmit s.platform (pixelAddr s.latched s.work.pixel) 4 .write = true) (hwf : Memory.wf s.mem = true) :
    ∃ t, exec (.run l p) s = .next t ∧ t = { s with mem := t.mem, work := countPixel w } ∧
      (∀ k, k < 4 → Memory.get t.mem (pixelAddr s.latched s.work.pixel + k) = [c.r, c.g, c.b, 0xFF].getD k 0) ∧
      memSameOutside (pixelAddr s.latched s.work.pixel) 4 s t :=
  ⟨_, (exec_run l p s).trans (pixelStep_pixel hv hrun hidx hc ha), rfl,
    fun _ hk => Memory.get_write_same (bs := pixelBytes c) hwf hk (hmemAdmit_bound ha),
    fun _ hout => Memory.get_write_other (bs := pixelBytes c) hout⟩

end

/-- A fetch past the end of the stream ends the command at the cursor of the fetch (R184). -/
theorem engineStep_truncated {s : State} {v : Context} (hs : s.eState = .decoding) (hlt : s.work.pixel < s.work.npix)
    (hv : s.ctxs[s.work.ctxIndex]? = some v) (hr : s.work.rem = 0) (hend : v.rle.length < nextCursor s.work + 2) :
    engineStep s = .next (raisePixel .truncatedRunStream (nextCursor s.work) s) := by
  obtain ⟨-, -, hrun⟩ | ⟨-, hin, -⟩ | ⟨hne, -⟩ := currentRun_cases v s.work
  · simp [engineStep, hs, hlt, hv, hrun]
  · exact absurd hend (Nat.not_lt.2 hin)
  · exact absurd hr hne

end Sys2Proof.Machine

namespace Sys2Proof.Proofs.RunExpansion

open Sys2Proof.Machine Sys2Proof.Claims

/-- Settles O37: the fetch makes the pair the current run, whose first pixel is written and counted. -/
theorem runFetchesAndWritesPixel : Obligations.RunFetchesAndWritesPixel := by
  intro s v l p k hv hr hl hidx hc ha hwf
  obtain ⟨t, hexec, ht, hbytes, hframe⟩ := exec_run_pixel hv (loadRun_fetch hr hl) hidx hc ha hwf
  rw [countPixel, byte_sub_one hl] at ht
  exact ⟨t, hexec, ht, hbytes 0 (by decide), hbytes 1 (by decide), hbytes 2 (by decide), hbytes 3 (by decide), hframe⟩

/-- Settles O38: the run at hand goes on, so its next pixel is written and counted. -/
theorem runContinuesTheCurrentRun : Obligations.RunContinuesTheCurrentRun := by
  intro s v l p c hv hr hidx hc ha hwf
  obtain ⟨t, hexec, ht, hpixel⟩ := exec_run_pixel (l := l) (p := p) hv (loadRun_inRun hr) hidx hc ha hwf
  rw [countPixel, byte_sub_one hr] at ht
  exact ⟨t, hexec, ht, hpixel⟩

/-- Settles O39: the fetch part fails before the palette index is looked at. -/
theorem zeroLengthRunEndsTheCommand : Obligations.ZeroLengthRunEndsTheCommand := by
  intro s v p hv hr
  rw [exec_runZero, pixelStep_fetchError hv (loadRun_zeroLength hr)]
  exact endsInPixelError_raisePixel .zeroLengthRun (nextCursor s.work) s

/-- Settles O40, for the run just fetched and for a run that goes on. -/
theorem invalidPaletteIndexEndsTheCommand : Obligations.InvalidPaletteIndexEndsTheCommand := by
  refine ⟨fun s v l p hv hr hl hidx => ?_, fun s v l p hv hr hidx => ?_⟩
  · rw [exec_run, pixelStep_badIndex hv (loadRun_fetch hr hl) hidx]
    exact endsInPixelError_raisePixel .invalidPaletteIndex (nextCursor s.work) s
  · rw [exec_run, pixelStep_badIndex hv (loadRun_inRun hr) hidx]
    exact endsInPixelError_raisePixel .invalidPaletteIndex s.work.cursor s

/-- Settles O41: the Engine finds no pair at the cursor of its fetch. -/
theorem truncatedStreamEndsTheCommand : Obligations.TruncatedStreamEndsTheCommand := by
  intro s v hs hlt hv hr hend
  rw [engineStep_truncated hs hlt hv hr hend]
  exact endsInPixelError_raisePixel .truncatedRunStream (nextCursor s.work) s

end Sys2Proof.Proofs.RunExpansion
end

section
/-! Proofs of the statements of 70_reset_and_hazards.md and what they need: which bytes are live, the hazards of R251 by the
addresses of an access, and the bytes a Host read returns. -/

namespace Sys2Proof.Machine

open Sys2Proof.Claims

/-! ### Live bytes -/

/-- The addresses of a range of `len` bytes. -/
theorem inRange_iff {base len x : Nat} : inRange base len x = true ↔ base ≤ x ∧ x < base + len := by
  simp [inRange]

/-- A live destination byte is a byte of the running DECODE's declared capacity (R251). -/
theorem liveDest_iff {s : State} {x : Nat} :
    liveDest s x = true ↔ s.eState ≠ .idle ∧ s.eOp = 2 ∧ s.latched.destBase.toNat ≤ x ∧
      x < s.latched.destBase.toNat + 4 * s.latched.destPixels.toNat := by
  simp [liveDest, busy, inRange_iff, Config.channels, and_assoc]

/-- A live source byte is a palette or blob byte of the running LOAD (R251). -/
theorem liveSource_iff {s : State} {x : Nat} :
    liveSource s x = true ↔ s.eState ≠ .idle ∧
      (s.eOp = 1 ∧ s.latched.palBase.toNat ≤ x ∧ x < s.latched.palBase.toNat + s.latched.palLen.toNat ∨
       s.eOp = 1 ∧ s.latched.blobBase.toNat ≤ x ∧ x < s.latched.blobBase.toNat + s.latched.blobLen.toNat) := by
  simp [liveSource, busy, inRange_iff, and_assoc, ← and_or_left]

/-! ### The hazards, by the addresses of the access -/

/-- The bytes of an access, by offset and by address. -/
theorem exists_offset_iff {P : Nat → Prop} {a n : Nat} :
    (∃ k, k < n ∧ P (a + k)) ↔ ∃ x, a ≤ x ∧ x < a + n ∧ P x := by
  constructor
  · rintro ⟨k, hk, hP⟩
    exact ⟨a + k, Nat.le_add_right a k, Nat.add_lt_add_left hk a, hP⟩
  · rintro ⟨x, hax, hx, hP⟩
    exact ⟨x - a, by omega, (Nat.add_sub_cancel' hax).symm ▸ hP⟩

/-- A Host read is the hazard when an address it reads is in the running DECODE's declared destination (R251). -/
theorem readHazard_address_iff {s : State} {a n : Nat} :
    readHazard s a n = true ↔ s.eState ≠ .idle ∧ s.eOp = 2 ∧ ∃ x, a ≤ x ∧ x < a + n ∧
      s.latched.destBase.toNat ≤ x ∧ x < s.latched.destBase.toNat + 4 * s.latched.destPixels.toNat := by
  rw [readHazard_iff, exists_offset_iff (P := fun x => liveDest s x = true), ← exists_and_left, ← exists_and_left]
  exact exists_congr fun x => by rw [liveDest_iff]; tauto

/-- A Host write is the hazard when an address it writes is in the running DECODE's declared destination, or in the palette or
the blob of the running LOAD (R251). -/
theorem writeHazard_address_iff {s : State} {a n : Nat} :
    writeHazard s a n = true ↔ s.eState ≠ .idle ∧ ∃ x, a ≤ x ∧ x < a + n ∧
      (s.eOp = 2 ∧ s.latched.destBase.toNat ≤ x ∧ x < s.latched.destBase.toNat + 4 * s.latched.destPixels.toNat ∨
       s.eOp = 1 ∧ s.latched.palBase.toNat ≤ x ∧ x < s.latched.palBase.toNat + s.latched.palLen.toNat ∨
       s.eOp = 1 ∧ s.latched.blobBase.toNat ≤ x ∧ x < s.latched.blobBase.toNat + s.latched.blobLen.toNat) := by
  rw [writeHazard_iff, exists_offset_iff (P := fun x => liveDest s x = true ∨ liveSource s x = true),
    ← exists_and_left]
  exact exists_congr fun x => by rw [liveDest_iff, liveSource_iff]; tauto

/-! ### The bytes a Host read returns -/

/-- At an address that is not live a Host read returns host memory's byte (R251). -/
theorem hostByte_of_not_live {s : State} {a k : Nat} (h : liveDest s (a + k) ≠ true) :
    hostByte s a k = Memory.get s.mem (a + k) := if_neg h

/-- Byte `k` of what a Host read returns. -/
theorem hostBytes_getD {s : State} {a n k : Nat} (hk : k < n) :
    ((List.range n).map (hostByte s a)).getD k 0 = hostByte s a k := by
  simp [List.getD_eq_getElem?_getD, hk]

/-! ### Reset -/

/-- STATUS reads 0 after a reset, as at the reset state: it is made of fields a reset writes (R26, R42). -/
theorem statusWord_blockReset (s : State) : statusWord (blockReset s) = 0 :=
  calc statusWord (blockReset s)
    _ = statusWord State.reset := rfl
    _ = 0 := by decide

end Sys2Proof.Machine

namespace Sys2Proof.Proofs.ResetAndHazards

open Sys2Proof.Machine Sys2Proof.Claims

/-- Settles O44, the Host's read and its write, by the hazards of the addresses they touch. -/
theorem liveBufferHazard : Obligations.LiveBufferHazard := by
  refine ⟨fun s a n hb hw => ?_, fun s a bs hb hw hwf => ?_⟩
  · refine ⟨_, _, hostMemRead_eq hw hb, rfl, by simp, rfl, ?_, fun k hk hlive => ?_⟩
    · rw [Bool.or_eq_true, readHazard_address_iff]
    · rw [hostBytes_getD hk, hostByte_of_not_live (mt liveDest_iff.1 hlive)]
  · refine ⟨_, hostMemWrite_eq hw hb, rfl, fun k hk => Memory.get_write_same hwf hk hb,
      fun x hx => Memory.get_write_other hx, ?_⟩
    rw [Bool.or_eq_true, writeHazard_address_iff]

/-- Settles O2: the Host's reset is its next action, and leaves the block as R42 says. -/
theorem resetAbandonsTheCommand : Obligations.ResetAbandonsTheCommand := by
  intro s rest h
  exact ⟨_, hostStep_cons h, rfl, statusWord_blockReset _, rfl, rfl, rfl, rfl, rfl, rfl, rfl⟩

end Sys2Proof.Proofs.ResetAndHazards
end
